-- ==== Sys2Proof/Word.lean ====
section
/-!
DEFINITION. The machine's scalar types: the Word (R10, R15), the byte of the two channels (R72), the register index (R108).
-/
namespace Sys2Proof

/-- A Word: an unsigned 32-bit value, "the machine's only scalar type" (R15, R8 `XLEN`). -/
abbrev Word := BitVec 32

/-- A byte of the output channel, the input channel or the program image (R72). -/
abbrev Byte := BitVec 8

/-- A register index, 0 to 7 (R31, R108). A 3-bit field can name no other register, so the bound is in the type. -/
abbrev Reg := Fin 8

end Sys2Proof
end

