-- ==== Sys2Proof/Syntax.lean ====
section
/-!
DEFINITION. The structured instructions of R110: one constructor per row of the opcode map (R111).
-/
namespace Sys2Proof

/-- An instruction as the decoder gives it (R110). Operand names are the spec's field names. -/
inductive Instr where
  /-- Opcode 0, R160: conditional move. -/
  | cmov (ra rb rc : Reg)
  /-- Opcode 1, R180: segmented load; `rb` holds the segment ID, `rc` the offset. -/
  | sload (ra rb rc : Reg)
  /-- Opcode 2, R181: segmented store; `ra` holds the segment ID, `rb` the offset, `rc` the value. -/
  | sstore (ra rb rc : Reg)
  /-- Opcode 3, R200. -/
  | add (ra rb rc : Reg)
  /-- Opcode 4, R201. -/
  | mul (ra rb rc : Reg)
  /-- Opcode 5, R202: unsigned division. -/
  | div (ra rb rc : Reg)
  /-- Opcode 6, R203. -/
  | nand (ra rb rc : Reg)
  /-- Opcode 7, R230. -/
  | halt
  /-- Opcode 8, R250: `rb` receives the new segment's ID, `rc` holds its size. -/
  | map (rb rc : Reg)
  /-- Opcode 9, R251. -/
  | unmap (rc : Reg)
  /-- Opcode 10, R270. -/
  | out (rc : Reg)
  /-- Opcode 11, R271 (the mnemonic is IN, a reserved word of Lean). -/
  | inp (rc : Reg)
  /-- Opcode 12, R231: `rb` holds the source segment's ID, `rc` the jump target. -/
  | loadp (rb rc : Reg)
  /-- Opcode 13, R161: `value` is the immediate already zero-extended to a Word (R107, R110). -/
  | lv (ra : Reg) (value : Word)
  deriving DecidableEq, Repr

end Sys2Proof
end

