-- ==== Sys2Proof/WellFormed.lean ====
section
/-!
DEFINITION. Which structured instructions an instruction Word can stand for.
-/
namespace Sys2Proof

/-- An instruction some Word encodes. Register indices are in range by their type (R108). The one operand that may not
fit its field is the value of LV, whose field has 25 bits (R106, R107): 0 to 2^25 - 1. -/
def Instr.wellFormed : Instr → Bool
  | .cmov _ _ _ => true
  | .sload _ _ _ => true
  | .sstore _ _ _ => true
  | .add _ _ _ => true
  | .mul _ _ _ => true
  | .div _ _ _ => true
  | .nand _ _ _ => true
  | .halt => true
  | .map _ _ => true
  | .unmap _ => true
  | .out _ => true
  | .inp _ => true
  | .loadp _ _ => true
  | .lv _ value => decide (value.toNat < 2 ^ 25)

end Sys2Proof
end

