-- ==== Sys2Proof/Decode.lean ====
section
/-!
DEFINITION. The instruction_decoder block (R109), the decoder as a function (R110), the encoder (R115), the bits an
instruction keeps through the round trip (R115), and the written form of an instruction (R116).
-/
namespace Sys2Proof

/-- The register index in the three bits of `w` from bit `lo` up (R9, R108). -/
def regField (w : Word) (lo : Nat) : Reg := (w.extractLsb' lo 3).toFin

/-- The decoder block's outputs (R109). It drives every one of them for every opcode. -/
structure DecoderOut where
  opcode : BitVec 4
  ra : Reg
  rb : Reg
  rc : Reg
  lvRa : Reg
  imm : Word
  invalid : Bool
  deriving DecidableEq, Repr

/-- The combinational decoder of R109. -/
def decoder (w : Word) : DecoderOut where
  opcode := w.extractLsb' 28 4
  ra := regField w 6
  rb := regField w 3
  rc := regField w 0
  lvRa := regField w 25
  imm := (w.extractLsb' 0 25).setWidth 32
  invalid := decide (14 ≤ (w.extractLsb' 28 4).toNat)

/-- The verdict of the decoder on a Word that is no instruction (R110, R112). -/
inductive DecodeError where
  /-- The opcode is 14 or 15. -/
  | invalidOpcode
  deriving DecidableEq, Repr

/-- Every Word stands for exactly one instruction or is InvalidOpcode (R110); unused bits are not looked at (R113). -/
def decode (w : Word) : Except DecodeError Instr :=
  let d := decoder w
  match d.opcode.toNat with
  | 0 => .ok (.cmov d.ra d.rb d.rc)
  | 1 => .ok (.sload d.ra d.rb d.rc)
  | 2 => .ok (.sstore d.ra d.rb d.rc)
  | 3 => .ok (.add d.ra d.rb d.rc)
  | 4 => .ok (.mul d.ra d.rb d.rc)
  | 5 => .ok (.div d.ra d.rb d.rc)
  | 6 => .ok (.nand d.ra d.rb d.rc)
  | 7 => .ok .halt
  | 8 => .ok (.map d.rb d.rc)
  | 9 => .ok (.unmap d.rc)
  | 10 => .ok (.out d.rc)
  | 11 => .ok (.inp d.rc)
  | 12 => .ok (.loadp d.rb d.rc)
  | 13 => .ok (.lv d.lvRa d.imm)
  | _ => .error .invalidOpcode

/-- The instruction this decoder reads from the bits `w` of a table row of `nbits` bits, bit 0 least significant. An
instruction is one Word (R100), so a row wider than a Word is no instruction of this machine, and the bits that a
narrower row leaves out are 0. -/
def decodeTableWord (nbits w : Nat) : Option Instr :=
  if 32 < nbits then none
  else match decode (BitVec.ofNat 32 (w % 2 ^ nbits)) with
    | .ok i => some i
    | .error _ => none

/-- The three bits of a register field. -/
def regBits (r : Reg) : BitVec 3 := BitVec.ofFin r

/-- Format RRR (R102). -/
def encRRR (op : BitVec 4) (ra rb rc : Reg) : Word := op ++ 0#19 ++ regBits ra ++ regBits rb ++ regBits rc

/-- Format BC (R103). -/
def encBC (op : BitVec 4) (rb rc : Reg) : Word := op ++ 0#22 ++ regBits rb ++ regBits rc

/-- Format C (R104). -/
def encC (op : BitVec 4) (rc : Reg) : Word := op ++ 0#25 ++ regBits rc

/-- Format N (R105). -/
def encN (op : BitVec 4) : Word := op ++ 0#28

/-- Format LV (R106). -/
def encLV (op : BitVec 4) (ra : Reg) (value : BitVec 25) : Word := op ++ regBits ra ++ value

/-- The encoder of R115: the opcode and each field at its bits, every unused bit 0. The value of LV keeps its low 25 bits
(all of it, for a well-formed instruction). -/
def encode : Instr → Word
  | .cmov ra rb rc => encRRR 0 ra rb rc
  | .sload ra rb rc => encRRR 1 ra rb rc
  | .sstore ra rb rc => encRRR 2 ra rb rc
  | .add ra rb rc => encRRR 3 ra rb rc
  | .mul ra rb rc => encRRR 4 ra rb rc
  | .div ra rb rc => encRRR 5 ra rb rc
  | .nand ra rb rc => encRRR 6 ra rb rc
  | .halt => encN 7
  | .map rb rc => encBC 8 rb rc
  | .unmap rc => encC 9 rc
  | .out rc => encC 10 rc
  | .inp rc => encC 11 rc
  | .loadp rb rc => encBC 12 rb rc
  | .lv ra value => encLV 13 ra (value.setWidth 25)

/-- The opcode number of an instruction (R111). -/
def Instr.opcode : Instr → Nat
  | .cmov _ _ _ => 0
  | .sload _ _ _ => 1
  | .sstore _ _ _ => 2
  | .add _ _ _ => 3
  | .mul _ _ _ => 4
  | .div _ _ _ => 5
  | .nand _ _ _ => 6
  | .halt => 7
  | .map _ _ => 8
  | .unmap _ => 9
  | .out _ => 10
  | .inp _ => 11
  | .loadp _ _ => 12
  | .lv _ _ => 13

/-- `keep` of R115: the bits of a Word of opcode `op` that the round trip keeps, by format. -/
def keepMask (op : Nat) : Word :=
  match op with
  | 7 => 0xF0000000
  | 8 | 12 => 0xF000003F
  | 9 | 10 | 11 => 0xF0000007
  | 13 => 0xFFFFFFFF
  | _ => 0xF00001FF

/-- The written name of a register (R116). -/
def regName (r : Reg) : String := "r" ++ toString r.val

/-- The written form of an instruction (R116): mnemonic, then the operands in field order, immediates in decimal. -/
def Instr.asm : Instr → String
  | .cmov ra rb rc => "CMOV " ++ regName ra ++ ", " ++ regName rb ++ ", " ++ regName rc
  | .sload ra rb rc => "SLOAD " ++ regName ra ++ ", " ++ regName rb ++ ", " ++ regName rc
  | .sstore ra rb rc => "SSTORE " ++ regName ra ++ ", " ++ regName rb ++ ", " ++ regName rc
  | .add ra rb rc => "ADD " ++ regName ra ++ ", " ++ regName rb ++ ", " ++ regName rc
  | .mul ra rb rc => "MUL " ++ regName ra ++ ", " ++ regName rb ++ ", " ++ regName rc
  | .div ra rb rc => "DIV " ++ regName ra ++ ", " ++ regName rb ++ ", " ++ regName rc
  | .nand ra rb rc => "NAND " ++ regName ra ++ ", " ++ regName rb ++ ", " ++ regName rc
  | .halt => "HALT"
  | .map rb rc => "MAP " ++ regName rb ++ ", " ++ regName rc
  | .unmap rc => "UNMAP " ++ regName rc
  | .out rc => "OUT " ++ regName rc
  | .inp rc => "IN " ++ regName rc
  | .loadp rb rc => "LOADP " ++ regName rb ++ ", " ++ regName rc
  | .lv ra value => "LV " ++ regName ra ++ ", " ++ toString value.toNat

end Sys2Proof
end

