-- ==== Sys2Proof/Machine/State.lean ====
section
/-!
DEFINITION. The machine's state as plain data (R30), the fault kinds (R300), the run state (R46), the reasons a step gives
no next state, and the state right after reset (R50).
-/
namespace Sys2Proof.Machine

/-- The seven fault kinds (R300). Every fault is fatal and records its kind alone (R301). -/
inductive FaultKind where
  | loadError
  | invalidOpcode
  | segmentFault
  | unmapZero
  | divisionByZero
  | invalidOutputValue
  | resourceExhausted
  deriving DecidableEq, Repr

/-- The run state (R46): `halted` and `faulted k` are terminal (R140). -/
inductive RunState where
  | running
  | halted
  | faulted (k : FaultKind)
  deriving DecidableEq, Repr

/-- Which ALLOC_OK the machine runs with (R8, R66, D6): every allocation is granted, or the open function
`Config.allocOk` of the size and the architectural state decides. Log entry 4. -/
inductive AllocRule where
  | granted
  | hostDecides
  deriving DecidableEq, Repr

/-- A segment `(len, data)` (R40). `len` is a Word, so it is below 2^32. `cells` lists the Words of `data` that are not 0,
by offset, rising; a Word that is not listed is 0, as every Word is when the segment is made (R43). Log entry 7. -/
structure Segment where
  len : Word
  cells : List (Nat × Word)
  deriving DecidableEq, Repr

/-- The mapped segments by ID, rising (R40). An ID that is not listed is unmapped. Log entry 7. -/
abbrev Memory := List (Nat × Segment)

/-- The architectural state of R30 and nothing else: what ALLOC_OK may look at (R66, R152). The fields are those of `State`
of the same names. -/
structure ArchState where
  regs : Vector Word 8
  pc : Word
  mem : Memory
  free : List Word
  next : Nat
  run : RunState
  out : List Byte
  inpos : Nat
  deriving DecidableEq, Repr

/-- The architectural state, field for field that of R30, and after it the parameters of R8 that a run reads. -/
structure State where
  /-- `x[0..7]`, the register file (R31). -/
  regs : Vector Word 8
  /-- The program counter, a word offset into segment 0 (R35). -/
  pc : Word
  /-- `seg`, the partial map of the segment table (R40). -/
  mem : Memory
  /-- The free-list, its top first (R44). -/
  free : List Word
  /-- The extent, the smallest ID never issued (R45). -/
  next : Nat
  /-- The run state (R46). -/
  run : RunState
  /-- The bytes emitted so far, oldest first (R47). -/
  out : List Byte
  /-- How many bytes of the input stream IN instructions have consumed (R47, R273). -/
  inpos : Nat
  /-- The bytes of the host's stream INPUT given so far, consumed ones included (R273). Log entry 3. -/
  input : List Byte
  /-- Whether end-of-stream follows `input`; if not, the host has not answered yet (R150). Log entry 3. -/
  inputEnded : Bool
  /-- The machine's ALLOC_OK (R66). Log entry 4. -/
  allocRule : AllocRule
  deriving DecidableEq, Repr

/-- Why a machine takes no step. Raised by `step` alone, and only in the two terminal run states (R148): safe, since the
spec has no step there either. A fault of R300 is not one of these: taking it is a step, to a state whose `run` says so
(log entry 6). -/
inductive Fault where
  /-- Raised by `step` when a HALT has ended the run: "From `Halted` or `Faulted(k)` the machine takes no step". Safe. -/
  | halted
  /-- Raised by `step` when the fault `k` has ended the run. Safe. -/
  | faulted (k : FaultKind)
  deriving DecidableEq, Repr

/-- Why the model gives an instruction no meaning. -/
inductive Refusal where
  /-- Raised by an arm of `exec` whose instruction has no meaning yet: by none now. Safe. -/
  | notModelled (mnemonic : String)
  deriving DecidableEq, Repr

/-- The machine right after reset (R50), for the parameters and the image that log entries 1 to 4 name: REG_INIT is 0 in
every register, the image is empty (a valid image, R342), INPUT is empty and ended, and every allocation is granted.
`resetState` (Machine/Load.lean) is the same for every image and every parameter. DESIGN CHOICE, log entries 1, 2, 3, 4. -/
def State.reset : State where
  regs := #v[0, 0, 0, 0, 0, 0, 0, 0]
  pc := 0
  mem := [(0, ⟨0, []⟩)]
  free := []
  next := 1
  run := .running
  out := []
  inpos := 0
  input := []
  inputEnded := true
  allocRule := .granted

end Sys2Proof.Machine
end

