-- ==== Sys2Proof/Config.lean ====
section
/-!
DEFINITION. What an implementation or its environment fixes (R8): the sizes the spec states, and the parameters it leaves
open, as constants without a body.
-/
namespace Sys2Proof.Config

open Sys2Proof.Machine

/-- The number of segment IDs, 2^32 (R8, R41, D7). -/
abbrev idCount : Nat := 2 ^ 32

/-- The most Words an image may hold, 2^32 - 1 (R8, R342, D18). -/
abbrev maxImageWords : Nat := 2 ^ 32 - 1

/-- ALLOC_OK(size, state), an OPEN parameter (R8, R66, D6): nothing is known of it. The state is that of R30. Log entry 4. -/
opaque allocOk : Word → ArchState → Bool

/-- EXIT_CODE(k) - 1: EXIT_CODE is an OPEN parameter of which only "non-zero" is known (R308, D11). Log entry 9. -/
opaque exitCodePred : FaultKind → Nat

/-- EXIT_CODE (R308): any non-zero value for each kind. -/
def exitCode (k : FaultKind) : Nat := exitCodePred k + 1

end Sys2Proof.Config
end

