-- ==== Sys2Proof/Machine/Memory.lean ====
section
/-!
DEFINITION. The segmented word store as canonical lists: looking a key up, putting an entry, taking one out; the Words of
one segment; and `Memory.wf`, the canonical form.
-/
namespace Sys2Proof.Machine

/-- The entry of key `k`, if one is listed. -/
def lookupAt {α : Type} (k : Nat) : List (Nat × α) → Option α
  | [] => none
  | (k', v) :: l => if k = k' then some v else lookupAt k l

/-- The list with `v` as the entry of key `k`, its place kept by rising keys. -/
def insertAt {α : Type} (k : Nat) (v : α) : List (Nat × α) → List (Nat × α)
  | [] => [(k, v)]
  | (k', v') :: l =>
    if k < k' then (k, v) :: (k', v') :: l
    else if k = k' then (k, v) :: l
    else (k', v') :: insertAt k v l

/-- The list without the entry of key `k`. -/
def eraseAt {α : Type} (k : Nat) : List (Nat × α) → List (Nat × α)
  | [] => []
  | (k', v') :: l => if k = k' then eraseAt k l else (k', v') :: eraseAt k l

/-- Keys strictly rising, none below `lo`. -/
def risingFrom {α : Type} (lo : Nat) : List (Nat × α) → Bool
  | [] => true
  | (k, _) :: l => decide (lo ≤ k) && risingFrom (k + 1) l

/-- The Word at offset `off` of a segment; one that is not listed is 0 (R43). The bounds check is the caller's. -/
def Segment.read (g : Segment) (off : Word) : Word := (lookupAt off.toNat g.cells).getD 0#32

/-- The segment with `v` at offset `off`; a 0 is not listed. The length never changes (R43). -/
def Segment.write (g : Segment) (off v : Word) : Segment :=
  { g with cells := if v = 0#32 then eraseAt off.toNat g.cells else insertAt off.toNat v g.cells }

/-- A segment as Allocate makes it: `n` Words, all 0 (R43, R66). -/
def Segment.zeros (n : Word) : Segment := ⟨n, []⟩

/-- A segment in canonical form: offsets strictly rising, all below the length, no 0 listed. -/
def Segment.wf (g : Segment) : Bool :=
  risingFrom 0 g.cells && g.cells.all (fun c => decide (c.1 < g.len.toNat) && decide (c.2 ≠ 0#32))

/-- The store in canonical form: IDs strictly rising, each a Word (R41), each segment in canonical form. -/
def Memory.wf (m : Memory) : Bool :=
  risingFrom 0 m && m.all (fun e => decide (e.1 < 2 ^ 32) && e.2.wf)

/-- The segment of an ID, if the ID is mapped (R40). -/
def Memory.segment (m : Memory) (id : Word) : Option Segment := lookupAt id.toNat m

/-- The store with `g` as the segment of `id`. -/
def Memory.put (m : Memory) (id : Word) (g : Segment) : Memory := insertAt id.toNat g m

/-- The store with `id` unmapped. -/
def Memory.drop (m : Memory) (id : Word) : Memory := eraseAt id.toNat m

end Sys2Proof.Machine
end

