-- ==== Sys2Proof/Machine/Operands.lean ====
section
/-!
DEFINITION. Every operand form of the machine (R108): the register, as a source and as a destination (R11). The one
immediate reaches the machine already assembled (R107, R110). The machine has no flags (R48), so there is no file of flags.
-/
namespace Sys2Proof.Machine

/-- `x[i]` (R11): total, every index is a register and every register holds a Word (R32). -/
def readReg (s : State) (i : Reg) : Word := s.regs[i]

/-- `x[i] <- v` (R11). No register is hardwired (R31). -/
def writeReg (s : State) (i : Reg) (v : Word) : State := { s with regs := s.regs.set i v }

end Sys2Proof.Machine
end

