-- ==== Sys2Proof/Machine/Ops.lean ====
section
/-!
DEFINITION. The shared operations: the program counter's increment (R142), taking a fault (R306) and halting (R230), the
five requests of the segment table (R62 to R70), the instruction fetch (R141), and the shape every instruction's execution
has (R145, R147). The machine has no return from a fault (R307).
-/
namespace Sys2Proof.Machine

/-- The increment of step 2 of the cycle, modulo 2^32 (R36, R142). -/
def advance (s : State) : State := { s with pc := s.pc + 1#32 }

/-- `pc <- t` (R13). -/
def setPc (s : State) (t : Word) : State := { s with pc := t }

/-- Taking a fault: `run <- Faulted(k)` and the run ends. No handler, no vector, nothing saved (R306); the rest of the
state is kept for claims to read (R148, D12). Log entry 6. -/
def takeFault (k : FaultKind) (s : State) : State := { s with run := .faulted k }

/-- `halt`: `run <- Halted` (R13, R230). The rest of the state is kept for claims to read (R148, D12). -/
def haltRun (s : State) : State := { s with run := .halted }

/-- The architectural state of R30, without the model's own fields. -/
def archOf (s : State) : ArchState where
  regs := s.regs
  pc := s.pc
  mem := s.mem
  free := s.free
  next := s.next
  run := s.run
  out := s.out
  inpos := s.inpos

/-- ALLOC_OK(n, state) (R66, D6). It cannot see what the host has yet to give, so the run is fixed by INPUT (R152). Log
entry 4. -/
def allocOk (s : State) (n : Word) : Bool :=
  match s.allocRule with
  | .granted => true
  | .hostDecides => Config.allocOk n (archOf s)

/-- The state with another store. -/
def setMem (s : State) (m : Memory) : State := { s with mem := m }

/-- The state with another segment table: store, free-list and extent. -/
def setTable (s : State) (m : Memory) (free : List Word) (next : Nat) : State :=
  { s with mem := m, free := free, next := next }

/-- The length of a mapped segment (R40). -/
def segLen (s : State) (id : Word) : Option Word := (s.mem.segment id).map Segment.len

/-- Read (R62): the bounds check compares as unsigned (R63). -/
def segRead (s : State) (id off : Word) : Except FaultKind Word :=
  match s.mem.segment id with
  | none => .error .segmentFault
  | some g => if off < g.len then .ok (g.read off) else .error .segmentFault

/-- Write (R64): the same bounds contract as Read. -/
def segWrite (s : State) (id off v : Word) : Except FaultKind State :=
  match s.mem.segment id with
  | none => .error .segmentFault
  | some g => if off < g.len then .ok (setMem s (s.mem.put id (g.write off v))) else .error .segmentFault

/-- Allocate (R66, R67): the most recently reclaimed ID, else the extent. The `≤` is the spec's `next = 2^32`, since the
extent is never above 2^32 (R45). DEDUCED, log entry 11. -/
def segAlloc (s : State) (n : Word) : Except FaultKind (Word × State) :=
  if allocOk s n = false then .error .resourceExhausted
  else match s.free with
    | id :: rest => .ok (id, setTable s (s.mem.put id (Segment.zeros n)) rest s.next)
    | [] =>
      if Config.idCount ≤ s.next then .error .resourceExhausted
      else
        let id : Word := BitVec.ofNat 32 s.next
        .ok (id, setTable s (s.mem.put id (Segment.zeros n)) [] (s.next + 1))

/-- Reclaim (R68). -/
def segFree (s : State) (id : Word) : Except FaultKind State :=
  if id = 0#32 then .error .unmapZero
  else match s.mem.segment id with
    | none => .error .segmentFault
    | some _ => .ok (setTable s (s.mem.drop id) (id :: s.free) s.next)

/-- ReplaceCodeSegment (R70): segment 0 becomes a copy, by value, of segment `src` (R71). -/
def segReplace0 (s : State) (src : Word) : Except FaultKind State :=
  if src = 0#32 then .ok s
  else match s.mem.segment src with
    | none => .error .segmentFault
    | some g => .ok (setMem s (s.mem.put 0#32 g))

/-- The fetch of step 1 of the cycle: `SegRead(0, pc)` (R141). -/
def fetch (s : State) : Except FaultKind Word := segRead s 0#32 s.pc

/-- Steps 2 and 4 of the cycle for one instruction (R142, R144, R145): the increment, then the effect on the incremented
state. An effect that raises leaves nothing but the increment, and ends the run (R147). DESIGN CHOICE, log entry 10. -/
def retire (s : State) (effect : State → Except FaultKind State) : Host.Outcome State Fault Refusal :=
  match effect (advance s) with
  | .ok t => .next t
  | .error k => .next (takeFault k (advance s))

end Sys2Proof.Machine
end

