-- ==== Sys2Proof/Machine/Arithmetic.lean ====
section
/-!
DEFINITION. Arithmetic and logic: ADD, MUL, DIV and NAND (43_arithmetic.md), all on unsigned Words modulo 2^32 (R204).
-/
namespace Sys2Proof.Machine

/-- ADD (R200). -/
def execAdd (ra rb rc : Reg) (s : State) : Host.Outcome State Fault Refusal :=
  retire s fun s => .ok (writeReg s ra (readReg s rb + readReg s rc))

/-- MUL (R201): the low 32 bits of the unsigned product. -/
def execMul (ra rb rc : Reg) (s : State) : Host.Outcome State Fault Refusal :=
  retire s fun s => .ok (writeReg s ra (readReg s rb * readReg s rc))

/-- DIV (R202): unsigned quotient, truncating; a divisor of 0 is DivisionByZero. -/
def execDiv (ra rb rc : Reg) (s : State) : Host.Outcome State Fault Refusal :=
  retire s fun s =>
    if readReg s rc = 0#32 then .error .divisionByZero
    else .ok (writeReg s ra (readReg s rb / readReg s rc))

/-- NAND (R203). -/
def execNand (ra rb rc : Reg) (s : State) : Host.Outcome State Fault Refusal :=
  retire s fun s => .ok (writeReg s ra (~~~(readReg s rb &&& readReg s rc)))

end Sys2Proof.Machine
end

