-- ==== Sys2Proof/Machine/Control.lean ====
section
/-!
DEFINITION. Control: HALT and LOADP (44_control.md).
-/
namespace Sys2Proof.Machine

/-- HALT (R230). -/
def execHalt (s : State) : Host.Outcome State Fault Refusal :=
  retire s fun s => .ok (haltRun s)

/-- LOADP (R231): the target overrides the increment. -/
def execLoadp (rb rc : Reg) (s : State) : Host.Outcome State Fault Refusal :=
  retire s fun s => (segReplace0 s (readReg s rb)).map (fun t => setPc t (readReg s rc))

end Sys2Proof.Machine
end

