-- ==== Sys2Proof/Machine/InOut.lean ====
section
/-!
DEFINITION. Input and output: OUT and IN (46_io.md), and the host's end of the input channel (R150, R273).
-/
namespace Sys2Proof.Machine

/-- `emit(b)`: the byte goes to the end of the output history (R13, R47). -/
def emit (s : State) (b : Byte) : State := { s with out := s.out ++ [b] }

/-- One byte of the input stream is consumed (R273). -/
def consumeByte (s : State) : State := { s with inpos := s.inpos + 1 }

/-- What the host answers an IN with (R149, R271). -/
inductive HostAnswer where
  | byte (b : Byte)
  | endOfStream
  deriving DecidableEq, Repr

/-- `receive()` (R13, R271): the next byte of the stream, or end-of-stream, or `none` while the host has not answered
(R150). End-of-stream is sticky (D13). -/
def receive (s : State) : Option HostAnswer :=
  match s.input[s.inpos]? with
  | some b => some (.byte b)
  | none => if s.inputEnded then some .endOfStream else none

/-- The effect of IN once the host has answered (R271): the byte zero-extended and consumed, or the all-ones Word. -/
def acceptInput (rc : Reg) (a : HostAnswer) (s : State) : State :=
  match a with
  | .byte b => consumeByte (writeReg s rc (b.setWidth 32))
  | .endOfStream => writeReg s rc 0xFFFFFFFF#32

/-- OUT (R270): the check comes before the emit (C8). -/
def execOut (rc : Reg) (s : State) : Host.Outcome State Fault Refusal :=
  retire s fun s =>
    if 255 < (readReg s rc).toNat then .error .invalidOutputValue
    else .ok (emit s ((readReg s rc).setWidth 8))

/-- IN (R271). While the host has not answered, the step waits and no state changes (R150). Log entry 5. -/
def execInp (rc : Reg) (s : State) : Host.Outcome State Fault Refusal :=
  match receive s with
  | none => .next s
  | some a => retire s fun s => .ok (acceptInput rc a s)

/-- The host's side of the input channel (R149, R150, R273): it gives one more byte, or ends the stream; after the end it
gives nothing more (D13). -/
def hostGives (a : HostAnswer) (s : State) : State :=
  if s.inputEnded then s
  else match a with
    | .byte b => { s with input := s.input ++ [b] }
    | .endOfStream => { s with inputEnded := true }

end Sys2Proof.Machine
end

