-- ==== Sys2Proof/Machine/MemoryOps.lean ====
section
/-!
DEFINITION. Segmented load and store: SLOAD and SSTORE (42_memory_ops.md).
-/
namespace Sys2Proof.Machine

/-- SLOAD (R180). -/
def execSload (ra rb rc : Reg) (s : State) : Host.Outcome State Fault Refusal :=
  retire s fun s => (segRead s (readReg s rb) (readReg s rc)).map (writeReg s ra)

/-- SSTORE (R181). -/
def execSstore (ra rb rc : Reg) (s : State) : Host.Outcome State Fault Refusal :=
  retire s fun s => segWrite s (readReg s ra) (readReg s rb) (readReg s rc)

end Sys2Proof.Machine
end

