-- ==== Sys2Proof/Machine/Move.lean ====
section
/-!
DEFINITION. Data movement: CMOV and LV (41_move.md).
-/
namespace Sys2Proof.Machine

/-- CMOV (R160). -/
def execCmov (ra rb rc : Reg) (s : State) : Host.Outcome State Fault Refusal :=
  retire s fun s => .ok (if readReg s rc ≠ 0#32 then writeReg s ra (readReg s rb) else s)

/-- LV (R161). -/
def execLv (ra : Reg) (value : Word) (s : State) : Host.Outcome State Fault Refusal :=
  retire s fun s => .ok (writeReg s ra value)

end Sys2Proof.Machine
end

