-- ==== Sys2Proof/Machine/Segments.lean ====
section
/-!
DEFINITION. Segment management: MAP and UNMAP (45_segments.md).
-/
namespace Sys2Proof.Machine

/-- MAP (R250). -/
def execMap (rb rc : Reg) (s : State) : Host.Outcome State Fault Refusal :=
  retire s fun s => (segAlloc s (readReg s rc)).map (fun a => writeReg a.2 rb a.1)

/-- UNMAP (R251). -/
def execUnmap (rc : Reg) (s : State) : Host.Outcome State Fault Refusal :=
  retire s fun s => segFree s (readReg s rc)

end Sys2Proof.Machine
end

