-- ==== Sys2Proof/Machine/Dispatch.lean ====
section
/-!
DEFINITION. Dispatch (R144): one arm per instruction, each a call of its own meaning.
-/
namespace Sys2Proof.Machine

def exec (i : Instr) (s : State) : Host.Outcome State Fault Refusal :=
  match i with
  | .cmov ra rb rc => Sys2Proof.Machine.execCmov ra rb rc s
  | .sload ra rb rc => Sys2Proof.Machine.execSload ra rb rc s
  | .sstore ra rb rc => Sys2Proof.Machine.execSstore ra rb rc s
  | .add ra rb rc => Sys2Proof.Machine.execAdd ra rb rc s
  | .mul ra rb rc => Sys2Proof.Machine.execMul ra rb rc s
  | .div ra rb rc => Sys2Proof.Machine.execDiv ra rb rc s
  | .nand ra rb rc => Sys2Proof.Machine.execNand ra rb rc s
  | .halt => Sys2Proof.Machine.execHalt s
  | .map rb rc => Sys2Proof.Machine.execMap rb rc s
  | .unmap rc => Sys2Proof.Machine.execUnmap rc s
  | .out rc => Sys2Proof.Machine.execOut rc s
  | .inp rc => Sys2Proof.Machine.execInp rc s
  | .loadp rb rc => Sys2Proof.Machine.execLoadp rb rc s
  | .lv ra value => Sys2Proof.Machine.execLv ra value s

end Sys2Proof.Machine
end

