-- ==== Sys2Proof/Machine/Load.lean ====
section
/-!
DEFINITION. Reset as the construction of the machine from an image (R340), the loader's checks (R342) and byte order (R341);
and a Word put where the next fetch reads it.
-/
namespace Sys2Proof.Machine

/-- What the loader finds as the program file (R342). Opening and reading it is the host's (R7). -/
inductive ImageFile where
  | cannotBeOpened
  | cannotBeRead
  | bytes (content : List Byte)
  deriving DecidableEq, Repr

/-- The OPEN parameters of R8 that reset takes: REG_INIT (D3), INPUT (D13), ALLOC_OK (D6). -/
structure ResetParams where
  regInit : Vector Word 8
  input : List Byte
  inputEnded : Bool
  allocRule : AllocRule
  deriving DecidableEq, Repr

/-- One Word of the image, most significant byte first (R341). -/
def wordOfBytes (b0 b1 b2 b3 : Byte) : Word := b0 ++ b1 ++ b2 ++ b3

/-- The Words of an image (R341); none where the length is no multiple of 4 (R342). -/
def imageWords : List Byte → Option (List Word)
  | [] => some []
  | b0 :: b1 :: b2 :: b3 :: rest => (imageWords rest).map (fun ws => wordOfBytes b0 b1 b2 b3 :: ws)
  | _ => none

/-- The cells of Words that stand at offset `lo` and on; a 0 is not listed. -/
def cellsFrom (lo : Nat) : List Word → List (Nat × Word)
  | [] => []
  | w :: ws => if w = 0#32 then cellsFrom (lo + 1) ws else (lo, w) :: cellsFrom (lo + 1) ws

/-- The segment that holds exactly these Words, at most 2^32 - 1 of them (R43, R50). -/
def segmentOf (ws : List Word) : Segment := ⟨BitVec.ofNat 32 ws.length, cellsFrom 0 ws⟩

/-- The state right after reset (R50, R340 step 3), for any parameters and any image that passed the check. -/
def resetState (p : ResetParams) (ws : List Word) : State where
  regs := p.regInit
  pc := 0
  mem := [(0, segmentOf ws)]
  free := []
  next := 1
  run := .running
  out := []
  inpos := 0
  input := p.input
  inputEnded := p.inputEnded
  allocRule := p.allocRule

/-- The loader (R340): the image check first (R342), then the reset state. A LoadError constructs no machine (R309). -/
def load (p : ResetParams) : ImageFile → Except FaultKind State
  | .cannotBeOpened => .error .loadError
  | .cannotBeRead => .error .loadError
  | .bytes content =>
    match imageWords content with
    | none => .error .loadError
    | some ws => if Config.maxImageWords < ws.length then .error .loadError else .ok (resetState p ws)

/-- The state with the Word `w` where the next fetch reads: in segment 0 at the pc, the segment made long enough, and the
run state Running, so that the next step runs it. No segment is long enough for an offset of 2^32 - 1 (R38), so there the
Word goes to offset 0 and the pc with it. It stands for the loader's work (log entry 2). -/
def placeFetchWord (s : State) (w : Word) : State :=
  let pc : Word := if s.pc = 0xFFFFFFFF#32 then 0#32 else s.pc
  let g := (s.mem.segment 0#32).getD (Segment.zeros 0#32)
  let len := if g.len ≤ pc then pc + 1#32 else g.len
  { s with pc := pc, run := .running, mem := s.mem.put 0#32 ({ g with len := len }.write pc w) }

end Sys2Proof.Machine
end

