-- ==== Sys2Proof/Machine/Step.lean ====
section
/-!
DEFINITION. One step of the engine (R145): fetch, decode, dispatch. The increment of step 2 stands in `retire`, which every
meaning goes through, and here for a Word that is no instruction.
-/
namespace Sys2Proof.Machine

/-- One step (R145). A terminal machine takes none (R148). -/
def step (s : State) : Host.Outcome State Fault Refusal :=
  match s.run with
  | .halted => .fault .halted
  | .faulted k => .fault (.faulted k)
  | .running =>
    match fetch s with
    | .error k => .next (takeFault k s)
    | .ok w =>
      match decode w with
      | .error .invalidOpcode => .next (takeFault .invalidOpcode (advance s))
      | .ok i => exec i s

/-- The state with the instruction of bits `w`, a table row of `nbits` bits, where the next step fetches (log entry 2). -/
def State.withFetchWord (s : State) (nbits w : Nat) : State := placeFetchWord s (BitVec.ofNat 32 (w % 2 ^ nbits))

end Sys2Proof.Machine
end

