-- ==== Sys2Proof/Machine/Blocks.lean ====
section
/-!
DEFINITION. The machine a second time, as the four blocks and their ports (R1, R3, D1): the decoder's outputs (R109), the
register file's three read ports and one write port (R34), the segment table's request and response (R61), and the engine
that drives them from the opcode (R149). `blockStep` is written from the ports, not from the meanings; that it equals `step`
is a statement.
-/
namespace Sys2Proof.Machine

/-- What the register file's three read ports give (R34). -/
structure RegReads where
  rdataA : Word
  rdataB : Word
  rdataC : Word
  deriving DecidableEq, Repr

/-- The register file's one write port (R34). -/
structure RegWrite where
  we : Bool
  waddr : Reg
  wdata : Word
  deriving DecidableEq, Repr

/-- The read ports (R34). -/
def regFileRead (regs : Vector Word 8) (raddrA raddrB raddrC : Reg) : RegReads :=
  ⟨regs[raddrA], regs[raddrB], regs[raddrC]⟩

/-- The write port (R34). -/
def regFileWrite (regs : Vector Word 8) (p : RegWrite) : Vector Word 8 :=
  if p.we then regs.set p.waddr p.wdata else regs

/-- A request to the segment table (R61). -/
inductive SegRequest where
  | read (id off : Word)
  | write (id off v : Word)
  | allocate (n : Word)
  | reclaim (id : Word)
  | replaceCodeSegment (id : Word)
  deriving DecidableEq, Repr

/-- Its response (R61): Ok, with a Word for Read and Allocate, or Fail(kind). -/
inductive SegResponse where
  | ok (value : Option Word)
  | fail (k : FaultKind)
  deriving DecidableEq, Repr

/-- The segment table block: a response, and the state after it; "a request that fails changes no state" (R61). -/
def segTable (q : SegRequest) (s : State) : SegResponse × State :=
  match q with
  | .read id off =>
    match segRead s id off with
    | .ok v => (.ok (some v), s)
    | .error k => (.fail k, s)
  | .write id off v =>
    match segWrite s id off v with
    | .ok t => (.ok none, t)
    | .error k => (.fail k, s)
  | .allocate n =>
    match segAlloc s n with
    | .ok a => (.ok (some a.1), a.2)
    | .error k => (.fail k, s)
  | .reclaim id =>
    match segFree s id with
    | .ok t => (.ok none, t)
    | .error k => (.fail k, s)
  | .replaceCodeSegment id =>
    match segReplace0 s id with
    | .ok t => (.ok none, t)
    | .error k => (.fail k, s)

/-- The one request, beside the fetch, that an instruction of this opcode makes of the segment table (R61, R149). -/
def segRequestOf (op : Nat) (r : RegReads) : Option SegRequest :=
  match op with
  | 1 => some (.read r.rdataB r.rdataC)
  | 2 => some (.write r.rdataA r.rdataB r.rdataC)
  | 8 => some (.allocate r.rdataC)
  | 9 => some (.reclaim r.rdataC)
  | 12 => some (.replaceCodeSegment r.rdataB)
  | _ => none

/-- The checks the engine makes itself (R202, R270). -/
def engineCheck (op : Nat) (r : RegReads) : Option FaultKind :=
  match op with
  | 5 => if r.rdataC = 0#32 then some .divisionByZero else none
  | 10 => if 255 < r.rdataC.toNat then some .invalidOutputValue else none
  | _ => none

/-- The Word that IN writes for the host's answer (R271). -/
def inputWord : Option HostAnswer → Word
  | some (.byte b) => b.setWidth 32
  | _ => 0xFFFFFFFF#32

/-- The write port for an instruction (the table of R33), `v` being the segment table's Word. -/
def regWriteOf (d : DecoderOut) (r : RegReads) (v : Word) (a : Option HostAnswer) : RegWrite :=
  match d.opcode.toNat with
  | 0 => ⟨decide (r.rdataC ≠ 0#32), d.ra, r.rdataB⟩
  | 1 => ⟨true, d.ra, v⟩
  | 3 => ⟨true, d.ra, r.rdataB + r.rdataC⟩
  | 4 => ⟨true, d.ra, r.rdataB * r.rdataC⟩
  | 5 => ⟨true, d.ra, r.rdataB / r.rdataC⟩
  | 6 => ⟨true, d.ra, ~~~(r.rdataB &&& r.rdataC)⟩
  | 8 => ⟨true, d.rb, v⟩
  | 11 => ⟨true, d.rc, inputWord a⟩
  | 13 => ⟨true, d.lvRa, d.imm⟩
  | _ => ⟨false, 0, 0#32⟩

/-- The output channel's `out_valid` and `out_byte` (R149): at most one byte per instruction. -/
def outByteOf (op : Nat) (r : RegReads) : List Byte :=
  if op = 10 then [r.rdataC.setWidth 8] else []

/-- How many input bytes the instruction consumes (R273). -/
def inputBytesOf (op : Nat) (a : Option HostAnswer) : Nat :=
  match op, a with
  | 11, some (.byte _) => 1
  | _, _ => 0

/-- The effects of an instruction that raised nothing, applied together (R147). -/
def applyPorts (d : DecoderOut) (r : RegReads) (v : Word) (a : Option HostAnswer) (s : State) : State :=
  { s with
    regs := regFileWrite s.regs (regWriteOf d r v a)
    pc := if d.opcode.toNat = 12 then r.rdataC else s.pc
    out := s.out ++ outByteOf d.opcode.toNat r
    inpos := s.inpos + inputBytesOf d.opcode.toNat a
    run := if d.opcode.toNat = 7 then .halted else s.run }

/-- Dispatch from the decoder's outputs: the engine's own check, the segment table's response, then the effects; an IN the
host has not answered waits (R150). -/
def blockExec (d : DecoderOut) (s : State) : Host.Outcome State Fault Refusal :=
  let r := regFileRead s.regs d.ra d.rb d.rc
  let a := receive s
  if d.opcode.toNat = 11 ∧ a = none then .next s
  else match engineCheck d.opcode.toNat r with
    | some k => .next (takeFault k (advance s))
    | none =>
      match segRequestOf d.opcode.toNat r with
      | none => .next (applyPorts d r 0#32 a (advance s))
      | some q =>
        match segTable q (advance s) with
        | (.fail k, _) => .next (takeFault k (advance s))
        | (.ok v, t) => .next (applyPorts d r (v.getD 0#32) a t)

/-- One step of the engine over its blocks (R145, R149). -/
def blockStep (s : State) : Host.Outcome State Fault Refusal :=
  match s.run with
  | .halted => .fault .halted
  | .faulted k => .fault (.faulted k)
  | .running =>
    match segTable (.read 0#32 s.pc) s with
    | (.fail k, _) => .next (takeFault k s)
    | (.ok w, _) =>
      let d := decoder (w.getD 0#32)
      if d.invalid then .next (takeFault .invalidOpcode (advance s)) else blockExec d s

end Sys2Proof.Machine
end

