-- ==== Sys2Proof/Safety.lean ====
section
/-!
DEFINITION. What claims speak of: the segment table's invariant, the parts of a state that an instruction leaves alone, the
boundary a host sees, the runs of the machine.
-/
namespace Sys2Proof.Machine

/-- ID `id` is mapped (R40). -/
def Mapped (s : State) (id : Word) : Prop := (s.mem.segment id).isSome = true

/-- What the spec says of the segment table in every state of a run: the store is canonical (log entry 7), segment 0 is
mapped and never in the free-list (R42), the free-list has no repeats and holds unmapped IDs below the extent (R44), the
extent is in [1, 2^32] and every ID below it is mapped or free, every one above it unmapped (R45). The last clause says
that no more input is consumed than there is (R273). -/
structure TableInv (s : State) : Prop where
  canonical : s.mem.wf = true
  codeMapped : Mapped s 0#32
  freeNodup : s.free.Nodup
  freeUnmapped : ∀ id ∈ s.free, ¬ Mapped s id
  freeIssued : ∀ id ∈ s.free, id.toNat < s.next
  mappedIssued : ∀ id, Mapped s id → id.toNat < s.next
  issued : ∀ id : Word, id.toNat < s.next → Mapped s id ∨ id ∈ s.free
  nextPos : 1 ≤ s.next
  nextBound : s.next ≤ 2 ^ 32
  inputBound : s.inpos ≤ s.input.length

/-- Every register of `t` but those of `ds` holds what it held in `s`. -/
def RegsSameBut (ds : List Reg) (s t : State) : Prop := ∀ r, r ∉ ds → readReg t r = readReg s r

/-- Every Read of segment `id` answers in `t` as in `s`, and its length (or its being unmapped) is the same. -/
def SegmentSame (id : Word) (s t : State) : Prop :=
  segLen t id = segLen s id ∧ ∀ off, segRead t id off = segRead s id off

/-- The whole segment table is the same: every address reads as before, every length, the free-list and the extent. -/
def TableSame (s t : State) : Prop :=
  (∀ id, SegmentSame id s t) ∧ t.free = s.free ∧ t.next = s.next

/-- Both channels stand where they stood. -/
def ChannelsSame (s t : State) : Prop := t.out = s.out ∧ t.inpos = s.inpos

/-- The parameters of R8 that stand in the state, which no instruction writes. -/
def ParamsSame (s t : State) : Prop :=
  t.input = s.input ∧ t.inputEnded = s.inputEnded ∧ t.allocRule = s.allocRule

/-- The state `t` is `s` with the fault `k` taken after the increment, and nothing else changed (R147, R306). -/
def FaultedAfterIncrement (k : FaultKind) (s t : State) : Prop :=
  t.run = .faulted k ∧ t.pc = s.pc + 1#32 ∧ RegsSameBut [] s t ∧ TableSame s t ∧ ChannelsSame s t ∧ ParamsSame s t

/-- The state `t` is `s` after the increment with nothing changed but, perhaps, register `d` (R33, R36). -/
def OnlyRegister (d : Reg) (s t : State) : Prop :=
  t.pc = s.pc + 1#32 ∧ t.run = s.run ∧ RegsSameBut [d] s t ∧ TableSame s t ∧ ChannelsSame s t ∧ ParamsSame s t

/-- The register number in the three bits of `w` from bit `lo` up, by division (R9). -/
def bitsReg (w : Word) (lo : Nat) : Reg := Fin.ofNat 8 (w.toNat / 2 ^ lo)

/-- The registers an instruction reads (the table of R33). -/
def regsRead : Instr → List Reg
  | .cmov _ rb rc => [rb, rc]
  | .sload _ rb rc => [rb, rc]
  | .sstore ra rb rc => [ra, rb, rc]
  | .add _ rb rc => [rb, rc]
  | .mul _ rb rc => [rb, rc]
  | .div _ rb rc => [rb, rc]
  | .nand _ rb rc => [rb, rc]
  | .halt => []
  | .map _ rc => [rc]
  | .unmap rc => [rc]
  | .out rc => [rc]
  | .inp _ => []
  | .loadp rb rc => [rb, rc]
  | .lv _ _ => []

/-- The register an instruction may write (the table of R33): at most one. -/
def regWritten : Instr → Option Reg
  | .cmov ra _ _ => some ra
  | .sload ra _ _ => some ra
  | .sstore _ _ _ => none
  | .add ra _ _ => some ra
  | .mul ra _ _ => some ra
  | .div ra _ _ => some ra
  | .nand ra _ _ => some ra
  | .halt => none
  | .map rb _ => some rb
  | .unmap _ => none
  | .out _ => none
  | .inp rc => some rc
  | .loadp _ _ => none
  | .lv ra _ => some ra

/-- The faults an instruction's own check can raise (the table of R303). -/
def possibleFaults : Instr → List FaultKind
  | .cmov _ _ _ => []
  | .sload _ _ _ => [.segmentFault]
  | .sstore _ _ _ => [.segmentFault]
  | .add _ _ _ => []
  | .mul _ _ _ => []
  | .div _ _ _ => [.divisionByZero]
  | .nand _ _ _ => []
  | .halt => []
  | .map _ _ => [.resourceExhausted]
  | .unmap _ => [.unmapZero, .segmentFault]
  | .out _ => [.invalidOutputValue]
  | .inp _ => []
  | .loadp _ _ => [.segmentFault]
  | .lv _ _ => []

/-- The instructions of a list run one after another; none where one answers no next state. -/
def execAll : List Instr → State → Option State
  | [], s => some s
  | i :: is, s =>
    match exec i s with
    | .next t => execAll is t
    | .fault _ => none
    | .refused _ => none

/-- The exit status a host sees (R308): 0 after a HALT, EXIT_CODE(k) after a fault, none while the machine runs. -/
def exitStatus : RunState → Option Nat
  | .running => none
  | .halted => some 0
  | .faulted k => some (Config.exitCode k)

/-- What a host can observe of a machine after termination (R148): output, outcome, exit status. -/
structure Boundary where
  out : List Byte
  outcome : RunState
  status : Option Nat
  deriving DecidableEq, Repr

/-- The boundary of a state (R148). -/
def boundary (s : State) : Boundary := ⟨s.out, s.run, exitStatus s.run⟩

/-- The states of the runs that start in `s0` (R151): the machine steps, and the host may give input between two steps
(R150, R273). -/
inductive Reachable (s0 : State) : State → Prop where
  | start : Reachable s0 s0
  | step {s t : State} : Reachable s0 s → Machine.step s = .next t → Reachable s0 t
  | host {s : State} (a : HostAnswer) : Reachable s0 s → Reachable s0 (hostGives a s)

/-- The state after `n` steps of the machine, the host giving nothing between them; none where one answers no next state. -/
def runSteps : Nat → State → Option State
  | 0, s => some s
  | n + 1, s =>
    match step s with
    | .next t => runSteps n t
    | .fault _ => none
    | .refused _ => none

/-- A run without a fault, so far: running or ended by a HALT (R46). -/
def Safe (s : State) : Prop := ∀ k, s.run ≠ .faulted k

/-- The numeric label of a fault kind (R300, D11). -/
def FaultKind.code : FaultKind → Nat
  | .loadError => 1
  | .invalidOpcode => 2
  | .segmentFault => 3
  | .unmapZero => 4
  | .divisionByZero => 5
  | .invalidOutputValue => 6
  | .resourceExhausted => 7

end Sys2Proof.Machine
end

