-- ==== Sys2Proof/Certificates/Slice0/Obligations.lean ====
section
/-!
DEFINITION. The statements for the provers: what the spec's numbered rules say the machine does.
-/

open Sys2Proof Sys2Proof.Machine

/-- For every well-formed instruction, decode of encode is the instruction. For every Word that decodes to an instruction,
encode of it is the Word with the bits outside keep(op) cleared, keep being the mask of the opcode's format; the
opcodes 0 to 13 are the ones that decode and the encoder sets every unused bit to 0. (R115) -/
def Obligations.DecodeAndEncodeAgree : Prop :=
  (∀ i : Instr, i.wellFormed = true → decode (encode i) = .ok i) ∧
  (∀ (w : Word) (i : Instr), decode w = .ok i → encode i = w &&& keepMask (w.toNat / 2 ^ 28)) ∧
  (∀ w : Word, w.toNat / 2 ^ 28 ≤ 13 → ∃ i, decode w = .ok i) ∧
  (∀ w : Word, 14 ≤ w.toNat / 2 ^ 28 → decode w = .error .invalidOpcode) ∧
  keepMask 7 = 0xF0000000#32 ∧ keepMask 13 = 0xFFFFFFFF#32 ∧
  (∀ op, op ≤ 6 → keepMask op = 0xF00001FF#32) ∧ (∀ op, op = 8 ∨ op = 12 → keepMask op = 0xF000003F#32) ∧
  (∀ op, op = 9 ∨ op = 10 ∨ op = 11 → keepMask op = 0xF0000007#32)

/-- Two Words of one opcode 0 to 13 that agree on the bits keep(op) of the format decode to the same instruction, with no
verdict of InvalidOpcode. (R113) -/
def Obligations.UnusedBitsAreIgnored : Prop :=
  ∀ w w' : Word, w.toNat / 2 ^ 28 ≤ 13 → w'.toNat / 2 ^ 28 = w.toNat / 2 ^ 28 →
    w &&& keepMask (w.toNat / 2 ^ 28) = w' &&& keepMask (w.toNat / 2 ^ 28) →
    ∃ i, decode w = .ok i ∧ decode w' = .ok i

/-- The verdict InvalidOpcode and the decoder block's invalid output both say that bits 31:28 are 14 or 15. Every other
Word decodes to an instruction that is well formed and whose opcode number is bits 31:28. (30_encoding.md R101,
30_encoding.md R110, 30_encoding.md R112, 30_encoding.md R109) -/
def Obligations.DecoderVerdictFollowsTheOpcode : Prop :=
  ∀ w : Word,
    ((decoder w).invalid = true ↔ 14 ≤ w.toNat / 2 ^ 28) ∧
    (decode w = .error .invalidOpcode ↔ 14 ≤ w.toNat / 2 ^ 28) ∧
    (w.toNat / 2 ^ 28 ≤ 13 → ∃ i, decode w = .ok i ∧ i.wellFormed = true ∧ i.opcode = w.toNat / 2 ^ 28)

/-- For every Word, whatever its opcode: opcode is bits 31:28, ra bits 8:6, rb bits 5:3, rc bits 2:0, lv_ra bits 27:25,
and imm is bits 24:0 zero-extended. (30_encoding.md R109, 30_encoding.md R107, 00_scope.md R9) -/
def Obligations.DecoderOutputsAreTheFields : Prop :=
  ∀ w : Word,
    (decoder w).opcode.toNat = w.toNat / 2 ^ 28 ∧ (decoder w).ra = bitsReg w 6 ∧ (decoder w).rb = bitsReg w 3 ∧
    (decoder w).rc = bitsReg w 0 ∧ (decoder w).lvRa = bitsReg w 25 ∧ (decoder w).imm.toNat = w.toNat % 2 ^ 25

/-- One Word of each family, written in the spec's decoder vectors (D3, D5, D6, D9, D13, D15, D18, D20, D22, D23, D28,
D30), decodes as the spec says. (95_test_vectors.md 2.1, 30_encoding.md R116) -/
def Obligations.KnownWordsDecode : Prop :=
  decode 0x0FFFFE00#32 = .ok (.cmov 0 0 0) ∧ decode 0x1000014A#32 = .ok (.sload 5 1 2) ∧
  decode 0x200000CA#32 = .ok (.sstore 3 1 2) ∧ decode 0x500000CA#32 = .ok (.div 3 1 2) ∧
  decode 0x7FFFFFFF#32 = .ok .halt ∧ decode 0x800001CB#32 = .ok (.map 1 3) ∧
  decode 0x9FFFFFF9#32 = .ok (.unmap 1) ∧ decode 0xAFFFFFF8#32 = .ok (.out 0) ∧
  decode 0xBFFFFFFF#32 = .ok (.inp 7) ∧ decode 0xC0000030#32 = .ok (.loadp 6 0) ∧
  decode 0xDFFFFFFF#32 = .ok (.lv 7 0x1FFFFFF#32) ∧ decode 0xEFFFFFFF#32 = .error .invalidOpcode

/-- When the machine is running, the Read of segment 0 at the pc gives a Word and the Word decodes to an instruction, the
step is exec of that instruction at that state; the increment of the pc (R142) is inside exec. (40_engine.md R144,
40_engine.md R145) -/
def Obligations.StepRunsTheDecodedInstruction : Prop :=
  ∀ (s : State) (w : Word) (i : Instr), s.run = .running → segRead s 0#32 s.pc = .ok w → decode w = .ok i →
    step s = exec i s

/-- While the machine runs, if the pc is at or beyond the length of segment 0 (or segment 0 were unmapped), the step takes
SegmentFault: the run state changes and nothing else does, the pc included. Otherwise the fetch gives the Word at
offset pc of segment 0, which no register has a part in. (R141) -/
def Obligations.FetchBeyondTheCodeSegmentFaults : Prop :=
  ∀ s : State, s.run = .running →
    ((segLen s 0#32 = none ∨ ∃ n, segLen s 0#32 = some n ∧ n.toNat ≤ s.pc.toNat) →
      ∃ t, step s = .next t ∧ t.run = .faulted .segmentFault ∧ t.pc = s.pc ∧ RegsSameBut [] s t ∧ TableSame s t ∧
        ChannelsSame s t ∧ ParamsSame s t) ∧
    (∀ n, segLen s 0#32 = some n → s.pc.toNat < n.toNat →
      ∃ w, fetch s = .ok w ∧ segRead s 0#32 s.pc = .ok w ∧ ∀ regs, fetch { s with regs := regs } = .ok w)

/-- While the machine runs, if the fetched Word has opcode 14 or 15, the step takes InvalidOpcode after the increment, and
nothing else changes. (R143) -/
def Obligations.UnassignedOpcodeFaults : Prop :=
  ∀ (s : State) (w : Word), s.run = .running → fetch s = .ok w → 14 ≤ w.toNat / 2 ^ 28 →
    ∃ t, step s = .next t ∧ FaultedAfterIncrement .invalidOpcode s t

/-- In a terminal run state the step answers no next state; a step that answers a next state starts in Running; and a
running machine always answers a next state. That the last clause holds for an IN the host has not answered too, where
the spec has no step happen and no state change (R150, R273), is the model's choice: there step answers the same state
(log entry 5, DEDUCED). (10_state.md R46, 40_engine.md R140, 40_engine.md R145) -/
def Obligations.NoStepLeavesATerminalState : Prop :=
  (∀ s t : State, step s = .next t → s.run = .running) ∧
  (∀ s : State, s.run = .running → ∃ t, step s = .next t)

/-- For every step of a running machine that ends in Faulted(k): registers, segment table, both channels and the
parameters are as before, and the pc is as before (only for a SegmentFault of the fetch) or incremented. (40_engine.md
R147, 60_exceptions.md R304, 60_exceptions.md R303) -/
def Obligations.FaultsArePrecise : Prop :=
  ∀ (s t : State) (k : FaultKind), step s = .next t → t.run = .faulted k →
    RegsSameBut [] s t ∧ TableSame s t ∧ ChannelsSame s t ∧ ParamsSame s t ∧
    ((t.pc = s.pc ∧ k = .segmentFault ∧ ∃ e, fetch s = .error e) ∨ (t.pc = s.pc + 1#32 ∧ ∃ w, fetch s = .ok w))

/-- For every instruction and state: if a running machine is faulted after it, the kind is one R303 lists for that
instruction (so CMOV, ADD, MUL, NAND, LV, HALT and IN never fault), and LoadError is none of them. (60_exceptions.md
R303, 60_exceptions.md R309) -/
def Obligations.FaultKindsFollowTheTable : Prop :=
  ∀ (i : Instr) (s t : State) (k : FaultKind), exec i s = .next t → s.run = .running → t.run = .faulted k →
    k ∈ possibleFaults i ∧ k ≠ .loadError

/-- If a step answers a state whose run state is Halted, the fetched Word has opcode 7. (44_control.md R230, 40_engine.md
R140) -/
def Obligations.OnlyHaltEndsTheRunNormally : Prop :=
  ∀ s t : State, step s = .next t → t.run = .halted → ∃ w, fetch s = .ok w ∧ w.toNat / 2 ^ 28 = 7

/-- For every instruction and state, a register whose value changes is the register R33 names as written by that
instruction. (10_state.md R33, 10_state.md R34) -/
def Obligations.RegistersWrittenFollowTheTable : Prop :=
  ∀ (i : Instr) (s t : State), exec i s = .next t → ∀ r, readReg t r ≠ readReg s r → regWritten i = some r

/-- For every instruction and every register it does not read by the table of R33: with another value in that register the
instruction answers a state that differs from the first in that register at most. The premise that allocation is
always granted is needed because the open ALLOC_OK may look at all of the architectural state (log entry 4).
(10_state.md R33, 10_state.md R34, 70_reset_and_hazards.md R343) -/
def Obligations.UnreadRegistersDoNotMatter : Prop :=
  ∀ (i : Instr) (s t : State) (r : Reg) (v : Word), r ∉ regsRead i → s.allocRule = .granted → exec i s = .next t →
    ∃ t', exec i (writeReg s r v) = .next t' ∧ ∀ z, writeReg t' r z = writeReg t r z

/-- For every instruction that is not LOADP, the pc after it is the pc before it plus 1 modulo 2^32, or it is an IN the
host has not answered and the whole state is unchanged (log entry 5). LOADP leaves its target or, when it faults, the
incremented pc. (10_state.md R36, 44_control.md R232, 40_engine.md R150) -/
def Obligations.OnlyLoadpJumps : Prop :=
  (∀ (i : Instr) (s t : State), exec i s = .next t → (∀ rb rc, i ≠ .loadp rb rc) →
    t.pc = s.pc + 1#32 ∨ (t = s ∧ receive s = none ∧ ∃ rc, i = .inp rc)) ∧
  (∀ (rb rc : Reg) (s t : State), exec (.loadp rb rc) s = .next t →
    t.pc = readReg s rc ∨ (t.pc = s.pc + 1#32 ∧ t.run = .faulted .segmentFault))

/-- Every step leaves the parameters that stand in the state (the model's own fields, log entries 3 and 4) as they were.
(40_engine.md R152, 00_scope.md R8) -/
def Obligations.ParametersNeverChange : Prop :=
  ∀ s t : State, step s = .next t → ParamsSame s t

/-- For every step: the output after is the output before, or the output before and one byte at its end; in the second
case the fetched Word has opcode 10 and the machine goes on. (46_io.md R272, 20_memory.md R79) -/
def Obligations.OutputOnlyGrows : Prop :=
  ∀ s t : State, step s = .next t →
    t.out = s.out ∨ ∃ b w, t.out = s.out ++ [b] ∧ fetch s = .ok w ∧ w.toNat / 2 ^ 28 = 10 ∧ t.run = .running

/-- For every step: the input position stays, or it grows by one, in which case the fetched Word has opcode 11 and there
was a byte at the old position. That an IN at end-of-stream leaves the position is the model's reading of R273 over
R47, which counts items (log entry 8, DEDUCED). (46_io.md R273) -/
def Obligations.InputIsConsumedInOrder : Prop :=
  ∀ s t : State, step s = .next t →
    t.inpos = s.inpos ∨
      (t.inpos = s.inpos + 1 ∧ s.inpos < s.input.length ∧ ∃ w, fetch s = .ok w ∧ w.toNat / 2 ^ 28 = 11)

/-- For every step from a state that meets the table invariant: the extent does not decrease; a mapped ID other than 0
keeps its length or is unmapped (and then put on top of the free-list); segment 0 stays mapped. (10_state.md R43,
10_state.md R45, 20_memory.md R71) -/
def Obligations.ExtentAndLengthsAreStable : Prop :=
  ∀ s t : State, TableInv s → step s = .next t →
    s.next ≤ t.next ∧ Mapped t 0#32 ∧
    ∀ id n, id ≠ 0#32 → segLen s id = some n → segLen t id = some n ∨ (segLen t id = none ∧ t.free = id :: s.free)

/-- For every state that meets TableInv (canonical store, segment 0 mapped, a free-list without repeats of unmapped issued
IDs, an extent in [1, 2^32] below which every ID is mapped or free and above which none is mapped, no more input
consumed than there is), a step that answers a next state answers one that meets it. (10_state.md R42, 10_state.md
R44, 10_state.md R45, 20_memory.md R71, 46_io.md R273) -/
def Obligations.StepKeepsTableInvariant : Prop :=
  ∀ s t : State, TableInv s → step s = .next t → TableInv t

/-- TableInv holds at State.reset (whose image and parameters are the model's choice, log entries 1 to 4). (10_state.md
R50, 10_state.md R44, 10_state.md R45) -/
def Obligations.ResetMeetsTableInvariant : Prop :=
  TableInv State.reset

/-- Whenever the loader constructs a machine, from any image file and any REG_INIT, INPUT and ALLOC_OK, TableInv holds of
it. (70_reset_and_hazards.md R340, 10_state.md R50) -/
def Obligations.EveryLoadedMachineMeetsTableInvariant : Prop :=
  ∀ (p : ResetParams) (file : ImageFile) (s : State), load p file = .ok s → TableInv s

/-- For every machine the loader constructs and every state its run reaches (the host giving input between any two steps):
the free-list does not contain 0, contains no mapped ID, has no repeats, and every ID in it is below the extent. And
the free-list is a stack: Allocate takes the most recently reclaimed ID. (R44) -/
def Obligations.EveryRunKeepsTheFreeListSound : Prop :=
  (∀ (p : ResetParams) (file : ImageFile) (s0 s : State), load p file = .ok s0 → Reachable s0 s →
    0#32 ∉ s.free ∧ (∀ id ∈ s.free, ¬ Mapped s id) ∧ s.free.Nodup ∧ ∀ id ∈ s.free, id.toNat < s.next) ∧
  (∀ (s t : State) (id : Word), segFree s id = .ok t → ∀ n, allocOk t n = true → ∃ u, segAlloc t n = .ok (id, u))

/-- For every machine the loader constructs and every state its run reaches (the host giving input between any two steps):
segment 0 is mapped and 0 is not in the free-list. In every state Reclaim of 0 fails with UnmapZero. A step that
changes the length of segment 0, or more than one of its Words, ran a LOADP. (R42) -/
def Obligations.SegmentZeroIsPermanent : Prop :=
  (∀ (p : ResetParams) (file : ImageFile) (s0 s : State), load p file = .ok s0 → Reachable s0 s →
    Mapped s 0#32 ∧ 0#32 ∉ s.free) ∧
  (∀ s : State, segFree s 0#32 = .error .unmapZero) ∧
  (∀ (p : ResetParams) (file : ImageFile) (s0 s t : State), load p file = .ok s0 → Reachable s0 s → step s = .next t →
    (segLen t 0#32 ≠ segLen s 0#32 ∨
      ∃ a b, a ≠ b ∧ segRead t 0#32 a ≠ segRead s 0#32 a ∧ segRead t 0#32 b ≠ segRead s 0#32 b) →
    ∃ w, fetch s = .ok w ∧ w.toNat / 2 ^ 28 = 12)

/-- If the fetch gives a Word, the pc is at most 0xFFFFFFFE and the incremented pc is its successor as a number; at
0xFFFFFFFF the fetch fails; the increment itself is modulo 2^32. (R38) -/
def Obligations.PcIncrementNeverWraps : Prop :=
  ∀ s : State,
    (∀ w, fetch s = .ok w → s.pc.toNat ≤ 0xFFFFFFFE ∧ (advance s).pc.toNat = s.pc.toNat + 1) ∧
    (s.pc = 0xFFFFFFFF#32 → fetch s = .error .segmentFault) ∧
    (advance s).pc.toNat = (s.pc.toNat + 1) % 2 ^ 32

/-- For every state and every table word of at most 32 bits that decodes to an instruction: the next step of the state
with that word placed runs that instruction, the registers, free-list, extent and channels being those of the state
(log entry 2 says what the placing stands for). (40_engine.md R141, 40_engine.md R145) -/
def Obligations.PlacedWordRunsNext : Prop :=
  ∀ (s : State) (nbits w : Nat) (i : Instr), nbits ≤ 32 → decodeTableWord nbits w = some i →
    step (s.withFetchWord nbits w) = exec i (s.withFetchWord nbits w) ∧ (s.withFetchWord nbits w).run = .running ∧
    RegsSameBut [] s (s.withFetchWord nbits w) ∧ (s.withFetchWord nbits w).free = s.free ∧
    (s.withFetchWord nbits w).next = s.next ∧ ChannelsSame s (s.withFetchWord nbits w) ∧
    ParamsSame s (s.withFetchWord nbits w) ∧ (∀ id, id ≠ 0#32 → SegmentSame id s (s.withFetchWord nbits w)) ∧
    (s.pc ≠ 0xFFFFFFFF#32 → (s.withFetchWord nbits w).pc = s.pc)

/-- The engine that drives the decoder's outputs, the register file's three reads and one write, at most one segment-table
request besides the fetch and the two channels answers, in every state, what step answers. The ports are the spec's
own choice (D1). (40_engine.md R149, 10_state.md R34, 20_memory.md R61, 30_encoding.md R109, 40_engine.md R145) -/
def Obligations.BlockEngineEqualsStep : Prop :=
  ∀ s : State, blockStep s = step s

/-- For every REG_INIT, INPUT and ALLOC_OK and every image of 4n bytes, n at most 2^32 - 1: the loader constructs a state
with the registers at REG_INIT, pc 0, segment 0 of length n whose Word i is B[4i] * 2^24 + B[4i+1] * 2^16 + B[4i+2] *
2^8 + B[4i+3], no other ID mapped, an empty free-list, extent 1, Running, no output, input position 0. (R50, R341) -/
def Obligations.LoaderBuildsTheResetState : Prop :=
  ∀ (p : ResetParams) (B : List Byte), B.length % 4 = 0 → B.length / 4 ≤ 2 ^ 32 - 1 →
    ∃ s, load p (.bytes B) = .ok s ∧ (∀ r : Reg, readReg s r = p.regInit[r]) ∧ s.pc = 0#32 ∧
      segLen s 0#32 = some (BitVec.ofNat 32 (B.length / 4)) ∧
      (∀ i, i < B.length / 4 → ∃ w, segRead s 0#32 (BitVec.ofNat 32 i) = .ok w ∧
        w.toNat = (B.getD (4 * i) 0).toNat * 2 ^ 24 + (B.getD (4 * i + 1) 0).toNat * 2 ^ 16 +
          (B.getD (4 * i + 2) 0).toNat * 2 ^ 8 + (B.getD (4 * i + 3) 0).toNat) ∧
      (∀ id, id ≠ 0#32 → ¬ Mapped s id) ∧ s.free = [] ∧ s.next = 1 ∧ s.run = .running ∧ s.out = [] ∧ s.inpos = 0 ∧
      s.input = p.input ∧ s.inputEnded = p.inputEnded ∧ s.allocRule = p.allocRule

/-- The loader fails with LoadError in the four cases of R342 and constructs a machine in every other case; the empty
image is valid, and its first step takes SegmentFault. (R342) -/
def Obligations.LoadErrorInFourCases : Prop :=
  ∀ p : ResetParams,
    load p .cannotBeOpened = .error .loadError ∧ load p .cannotBeRead = .error .loadError ∧
    (∀ B : List Byte, B.length % 4 ≠ 0 ∨ 2 ^ 32 - 1 < B.length / 4 → load p (.bytes B) = .error .loadError) ∧
    (∀ B : List Byte, B.length % 4 = 0 → B.length / 4 ≤ 2 ^ 32 - 1 → ∃ s, load p (.bytes B) = .ok s) ∧
    ∃ s t, load p (.bytes []) = .ok s ∧ step s = .next t ∧ t.run = .faulted .segmentFault ∧ t.pc = 0#32

/-- Reclaim of a mapped ID other than 0 succeeds; after it every access to that ID fails with SegmentFault and a second
Reclaim fails; the next granted Allocate of n Words gives the same ID, whose n Words are 0, leaves the extent and the
free-list as they were before the Reclaim, and leaves every other segment alone. (20_memory.md R67, 20_memory.md R69,
20_memory.md R68, 20_memory.md R66) -/
def Obligations.ReclaimedIdIsReissuedCleared : Prop :=
  ∀ (s : State) (id n : Word), id ≠ 0#32 → Mapped s id → allocOk (setTable s (s.mem.drop id) (id :: s.free) s.next) n = true →
    ∃ t u, segFree s id = .ok t ∧ (∀ off, segRead t id off = .error .segmentFault) ∧
      (∀ off v, segWrite t id off v = .error .segmentFault) ∧ segFree t id = .error .segmentFault ∧
      segAlloc t n = .ok (id, u) ∧ segLen u id = some n ∧ (∀ off : Word, off.toNat < n.toNat → segRead u id off = .ok 0#32) ∧
      (∀ off : Word, n.toNat ≤ off.toNat → segRead u id off = .error .segmentFault) ∧
      u.free = s.free ∧ u.next = s.next ∧ ∀ id', id' ≠ id → SegmentSame id' s u

/-- SSTORE to segment 0 at an offset below its length: in every state with the store it leaves and the pc at that offset,
the fetch reads the stored Word; when the offset is that of the next instruction, the state it leaves fetches it.
(20_memory.md R80, 70_reset_and_hazards.md R345, 42_memory_ops.md R181) -/
def Obligations.StoreIsSeenByTheFetch : Prop :=
  ∀ (s : State) (ra rb rc : Reg) (n : Word), readReg s ra = 0#32 → segLen s 0#32 = some n →
    (readReg s rb).toNat < n.toNat →
    ∃ t, exec (.sstore ra rb rc) s = .next t ∧
      (∀ u : State, u.mem = t.mem → u.pc = readReg s rb → fetch u = .ok (readReg s rc)) ∧
      (readReg s rb = s.pc + 1#32 → fetch t = .ok (readReg s rc))

/-- LOADP from a mapped segment other than 0: the state it leaves fetches the source's Word at the target (or fails where
the target is not below the source's length); a Write to the source leaves segment 0 alone and a Write to segment 0
leaves the source alone. (20_memory.md R71, 20_memory.md R70, 20_memory.md R80) -/
def Obligations.LoadedCodeIsAnIndependentCopy : Prop :=
  ∀ (s : State) (rb rc : Reg), readReg s rb ≠ 0#32 → Mapped s (readReg s rb) →
    ∃ t, exec (.loadp rb rc) s = .next t ∧ fetch t = segRead s (readReg s rb) (readReg s rc) ∧
      (∀ off v u, segWrite t (readReg s rb) off v = .ok u → SegmentSame 0#32 t u) ∧
      (∀ off v u, segWrite t 0#32 off v = .ok u → SegmentSame (readReg s rb) t u)

/-- The canonical form (log entry 7) has one list for each partial map of R40: stores that agree on which IDs are mapped,
on their lengths and on every Word below the length are equal. (10_state.md R40, 20_memory.md R76) -/
def Obligations.CanonicalStoresWithEqualReadsAreEqual : Prop :=
  ∀ m m' : Memory, m.wf = true → m'.wf = true →
    (∀ id, (m.segment id).map Segment.len = (m'.segment id).map Segment.len) →
    (∀ id g g', m.segment id = some g → m'.segment id = some g' → ∀ off : Word, off.toNat < g.len.toNat →
      g.read off = g'.read off) →
    m = m'

/-- With the given input consumed and the stream not ended, IN answers the same state. After the host gives a byte it
completes with that byte; after the host ends the stream it completes with the all-ones Word, and nothing the host
gives after that changes the state. That a waiting IN is a step to the same state (log entry 5, DEDUCED) and that the
position stays at end-of-stream (log entry 8, DEDUCED) are the model's choices. (40_engine.md R150, 46_io.md R271,
46_io.md R273) -/
def Obligations.WaitingInputGoesOnWhenTheHostAnswers : Prop :=
  ∀ (s : State) (rc : Reg) (b : Byte) (a : HostAnswer), s.inpos = s.input.length → s.inputEnded = false →
    exec (.inp rc) s = .next s ∧
    (∃ t, exec (.inp rc) (hostGives (.byte b) s) = .next t ∧ (readReg t rc).toNat = b.toNat ∧ t.inpos = s.inpos + 1) ∧
    (∃ t, exec (.inp rc) (hostGives .endOfStream s) = .next t ∧ readReg t rc = 0xFFFFFFFF#32 ∧ t.inpos = s.inpos) ∧
    hostGives a (hostGives .endOfStream s) = hostGives .endOfStream s

/-- Halted gives exit status 0; every fault kind, LoadError included, gives a non-zero one; so status 0 tells that the run
ended in Halted. The non-zero values are the open EXIT_CODE (log entry 9). (R308) -/
def Obligations.ExitStatusTellsHaltFromFault : Prop :=
  exitStatus .halted = some 0 ∧ (∀ k, ∃ n, exitStatus (.faulted k) = some n ∧ n ≠ 0) ∧
  ∀ r, exitStatus r = some 0 → r = .halted

/-- From every state: the sequences of R117 leave the result in ra (or the pc), for every choice of registers in which the
scratch registers are distinct from the operands still to be read (t and u distinct, the minuend none of them; the
register z holding 0 not the target of the CMOV). (30_encoding.md R117, 43_arithmetic.md R200, 43_arithmetic.md R203,
44_control.md R232) -/
def Obligations.IdiomsComputeTheirResults : Prop :=
  (∀ (s : State) (ra rb : Reg), ∃ t', execAll [.nand ra rb rb] s = some t' ∧ readReg t' ra = ~~~(readReg s rb)) ∧
  (∀ (s : State) (ra rb rc t : Reg), ∃ t', execAll [.nand t rb rc, .nand ra t t] s = some t' ∧
    readReg t' ra = readReg s rb &&& readReg s rc) ∧
  (∀ (s : State) (ra rb t : Reg), ∃ t', execAll [.nand t rb rb, .nand ra t t] s = some t' ∧ readReg t' ra = readReg s rb) ∧
  (∀ (s : State) (ra rb t u : Reg), t ≠ u → ∃ t', execAll [.nand t rb rb, .lv u 1#32, .add ra t u] s = some t' ∧
    (readReg t' ra).toNat = (2 ^ 32 - (readReg s rb).toNat) % 2 ^ 32) ∧
  (∀ (s : State) (ra rb rc t u : Reg), t ≠ u → rb ≠ t → rb ≠ u →
    ∃ t', execAll [.nand t rc rc, .lv u 1#32, .add t t u, .add ra rb t] s = some t' ∧
      readReg t' ra = readReg s rb - readReg s rc) ∧
  (∀ (s : State) (z rc : Reg), z ≠ rc → ∃ t', execAll [.lv z 0#32, .loadp z rc] s = some t' ∧
    t'.pc = readReg s rc ∧ TableSame s t') ∧
  (∀ (s : State) (z p q k : Reg), readReg s z = 0#32 → q ≠ z → ∃ t', execAll [.cmov q p k, .loadp z q] s = some t' ∧
    t'.pc = (if readReg s k ≠ 0#32 then readReg s p else readReg s q) ∧ TableSame s t')

/-- With other bytes before the output history, a step answers the same state with those bytes before its output history.
The premise that allocation is always granted is needed because the open ALLOC_OK may look at all of the architectural
state (log entry 4). (10_state.md R49, 46_io.md R272) -/
def Obligations.OutputHistoryIsNeverRead : Prop :=
  ∀ (s t : State) (old : List Byte), s.allocRule = .granted → step s = .next t →
    step { s with out := old ++ s.out } = .next { t with out := old ++ t.out }

/-- Every Word of opcode 0 decodes to CMOV of its fields. From every state CMOV completes: x[ra] is x[rb] if x[rc] was not
0 and is unchanged otherwise, every other register, the segment table, both channels, the run state and the parameters
unchanged, the pc incremented. (R160) -/
def Obligations.CmovMovesIfTheConditionIsNonZero : Prop :=
  (∀ w : Word, w.toNat / 2 ^ 28 = 0 → decode w = .ok (.cmov (bitsReg w 6) (bitsReg w 3) (bitsReg w 0))) ∧
  ∀ (s : State) (ra rb rc : Reg), ∃ t, exec (.cmov ra rb rc) s = .next t ∧
    readReg t ra = (if readReg s rc = 0#32 then readReg s ra else readReg s rb) ∧ OnlyRegister ra s t

/-- Every Word of opcode 13 decodes to LV of the register in bits 27:25 and of bits 24:0 zero-extended. From every state
LV completes: the register holds the value, every other register, the segment table, both channels, the run state and
the parameters unchanged, the pc incremented. (R161) -/
def Obligations.LvLoadsTheZeroExtendedValue : Prop :=
  (∀ w : Word, w.toNat / 2 ^ 28 = 13 → decode w = .ok (.lv (bitsReg w 25) (BitVec.ofNat 32 (w.toNat % 2 ^ 25)))) ∧
  ∀ (s : State) (ra : Reg) (value : Word), ∃ t, exec (.lv ra value) s = .next t ∧ readReg t ra = value ∧ OnlyRegister ra s t

/-- Every Word of opcode 1 decodes to SLOAD of its fields. If x[rb] is mapped and x[rc] is below its length, SLOAD
completes: x[ra] is the Word there, every other register, the segment table, both channels, the run state and the
parameters unchanged, the pc incremented. Otherwise it takes SegmentFault, and nothing but the pc's increment happens.
(R180) -/
def Obligations.SloadReadsTheAddressedWord : Prop :=
  (∀ w : Word, w.toNat / 2 ^ 28 = 1 → decode w = .ok (.sload (bitsReg w 6) (bitsReg w 3) (bitsReg w 0))) ∧
  ∀ (s : State) (ra rb rc : Reg),
    (∀ n, segLen s (readReg s rb) = some n → (readReg s rc).toNat < n.toNat →
      ∃ t v, exec (.sload ra rb rc) s = .next t ∧ segRead s (readReg s rb) (readReg s rc) = .ok v ∧ readReg t ra = v ∧
        OnlyRegister ra s t) ∧
    ((segLen s (readReg s rb) = none ∨ ∃ n, segLen s (readReg s rb) = some n ∧ n.toNat ≤ (readReg s rc).toNat) →
      ∃ t, exec (.sload ra rb rc) s = .next t ∧ FaultedAfterIncrement .segmentFault s t)

/-- Every Word of opcode 2 decodes to SSTORE of its fields. If x[ra] is mapped and x[rb] is below its length, SSTORE
completes: the Word at (x[ra], x[rb]) is x[rc], every other address reads as before, no length, free-list, extent,
register or channel changes, the pc is incremented. Otherwise it takes SegmentFault, and nothing but the pc's
increment happens. (R181) -/
def Obligations.SstoreWritesTheAddressedWord : Prop :=
  (∀ w : Word, w.toNat / 2 ^ 28 = 2 → decode w = .ok (.sstore (bitsReg w 6) (bitsReg w 3) (bitsReg w 0))) ∧
  ∀ (s : State) (ra rb rc : Reg),
    (∀ n, segLen s (readReg s ra) = some n → (readReg s rb).toNat < n.toNat →
      ∃ t, exec (.sstore ra rb rc) s = .next t ∧ segRead t (readReg s ra) (readReg s rb) = .ok (readReg s rc) ∧
        (∀ id off, ¬ (id = readReg s ra ∧ off = readReg s rb) → segRead t id off = segRead s id off) ∧
        (∀ id, segLen t id = segLen s id) ∧ t.free = s.free ∧ t.next = s.next ∧ RegsSameBut [] s t ∧
        t.pc = s.pc + 1#32 ∧ t.run = s.run ∧ ChannelsSame s t ∧ ParamsSame s t) ∧
    ((segLen s (readReg s ra) = none ∨ ∃ n, segLen s (readReg s ra) = some n ∧ n.toNat ≤ (readReg s rb).toNat) →
      ∃ t, exec (.sstore ra rb rc) s = .next t ∧ FaultedAfterIncrement .segmentFault s t)

/-- Every Word of opcode 3 decodes to ADD of its fields. From every state ADD completes: x[ra] is x[rb] + x[rc] modulo
2^32, every other register, the segment table, both channels, the run state and the parameters unchanged, the pc
incremented. (R200) -/
def Obligations.AddIsModulo : Prop :=
  (∀ w : Word, w.toNat / 2 ^ 28 = 3 → decode w = .ok (.add (bitsReg w 6) (bitsReg w 3) (bitsReg w 0))) ∧
  ∀ (s : State) (ra rb rc : Reg), ∃ t, exec (.add ra rb rc) s = .next t ∧
    (readReg t ra).toNat = ((readReg s rb).toNat + (readReg s rc).toNat) % 2 ^ 32 ∧ OnlyRegister ra s t

/-- Every Word of opcode 4 decodes to MUL of its fields. From every state MUL completes: x[ra] is x[rb] * x[rc] modulo
2^32, every other register, the segment table, both channels, the run state and the parameters unchanged, the pc
incremented. (R201) -/
def Obligations.MulIsModulo : Prop :=
  (∀ w : Word, w.toNat / 2 ^ 28 = 4 → decode w = .ok (.mul (bitsReg w 6) (bitsReg w 3) (bitsReg w 0))) ∧
  ∀ (s : State) (ra rb rc : Reg), ∃ t, exec (.mul ra rb rc) s = .next t ∧
    (readReg t ra).toNat = ((readReg s rb).toNat * (readReg s rc).toNat) % 2 ^ 32 ∧ OnlyRegister ra s t

/-- Every Word of opcode 5 decodes to DIV of its fields. If x[rc] is not 0, DIV completes: x[ra] is the floor of x[rb] /
x[rc] as unsigned numbers, every other register, the segment table, both channels, the run state and the parameters
unchanged, the pc incremented. If x[rc] is 0 it takes DivisionByZero, and nothing but the pc's increment happens.
(R202) -/
def Obligations.DivIsUnsignedAndFaultsOnZero : Prop :=
  (∀ w : Word, w.toNat / 2 ^ 28 = 5 → decode w = .ok (.div (bitsReg w 6) (bitsReg w 3) (bitsReg w 0))) ∧
  ∀ (s : State) (ra rb rc : Reg),
    (readReg s rc ≠ 0#32 → ∃ t, exec (.div ra rb rc) s = .next t ∧
      (readReg t ra).toNat = (readReg s rb).toNat / (readReg s rc).toNat ∧ OnlyRegister ra s t) ∧
    (readReg s rc = 0#32 → ∃ t, exec (.div ra rb rc) s = .next t ∧ FaultedAfterIncrement .divisionByZero s t)

/-- Every Word of opcode 6 decodes to NAND of its fields. From every state NAND completes: every bit of x[ra] is the NAND
of the same bits of x[rb] and x[rc], every other register, the segment table, both channels, the run state and the
parameters unchanged, the pc incremented. (R203) -/
def Obligations.NandIsBitwise : Prop :=
  (∀ w : Word, w.toNat / 2 ^ 28 = 6 → decode w = .ok (.nand (bitsReg w 6) (bitsReg w 3) (bitsReg w 0))) ∧
  ∀ (s : State) (ra rb rc : Reg), ∃ t, exec (.nand ra rb rc) s = .next t ∧
    (∀ i, i < 32 → (readReg t ra).getLsbD i = !((readReg s rb).getLsbD i && (readReg s rc).getLsbD i)) ∧ OnlyRegister ra s t

/-- Every Word of opcode 7 decodes to HALT. From every state HALT completes: the run state is Halted, the pc is
incremented, registers, segment table, channels and parameters are as before (the model keeps the final state, as R148
allows; log entry 6), the boundary shows the output and exit status 0, and no step follows. (44_control.md R230,
40_engine.md R148, 60_exceptions.md R308, 30_encoding.md R113) -/
def Obligations.HaltEndsTheRun : Prop :=
  (∀ w : Word, w.toNat / 2 ^ 28 = 7 → decode w = .ok .halt) ∧
  ∀ s : State, ∃ t, exec .halt s = .next t ∧ t.run = .halted ∧ t.pc = s.pc + 1#32 ∧ RegsSameBut [] s t ∧ TableSame s t ∧
    ChannelsSame s t ∧ ParamsSame s t ∧ boundary t = ⟨s.out, .halted, some 0⟩ ∧ ∀ u, step t ≠ .next u

/-- Every Word of opcode 8 decodes to MAP of its fields. If the allocation is granted and an ID is left, MAP completes:
the ID is the top of the free-list (which loses it) or, if that is empty, the extent (which grows by 1); the new
segment has x[rc] Words, all 0; x[rb] is the ID, which is never 0 in a state that meets the table invariant; every
other segment, register, the channels, run state and parameters are unchanged, the pc incremented. If it is not
granted, or the free-list is empty and the extent is 2^32, it takes ResourceExhausted and nothing but the pc's
increment happens. (R250) -/
def Obligations.MapIssuesTheRightIdOfAZeroSegment : Prop :=
  (∀ w : Word, w.toNat / 2 ^ 28 = 8 → decode w = .ok (.map (bitsReg w 3) (bitsReg w 0))) ∧
  ∀ (s : State) (rb rc : Reg),
    (∀ (id : Word) (free' : List Word) (next' : Nat), allocOk (advance s) (readReg s rc) = true →
      (s.free = id :: free' ∧ next' = s.next) ∨
        (s.free = [] ∧ free' = [] ∧ s.next < 2 ^ 32 ∧ id.toNat = s.next ∧ next' = s.next + 1) →
      ∃ t, exec (.map rb rc) s = .next t ∧ readReg t rb = id ∧ t.free = free' ∧ t.next = next' ∧
        segLen t id = some (readReg s rc) ∧ (∀ off : Word, off.toNat < (readReg s rc).toNat → segRead t id off = .ok 0#32) ∧
        (TableInv s → id ≠ 0#32) ∧ (∀ id', id' ≠ id → SegmentSame id' s t) ∧ RegsSameBut [rb] s t ∧ t.pc = s.pc + 1#32 ∧ t.run = s.run ∧
        ChannelsSame s t ∧ ParamsSame s t) ∧
    (allocOk (advance s) (readReg s rc) = false ∨ (s.free = [] ∧ s.next = 2 ^ 32) →
      ∃ t, exec (.map rb rc) s = .next t ∧ FaultedAfterIncrement .resourceExhausted s t)

/-- Every Word of opcode 9 decodes to UNMAP of its field. If x[rc] is a mapped ID other than 0, UNMAP completes: the ID is
unmapped and on top of the free-list; the extent, every other segment, every register, the channels, run state and
parameters are unchanged, the pc incremented. For 0 it takes UnmapZero in every state and for another unmapped ID
SegmentFault, and nothing but the pc's increment happens. (R251) -/
def Obligations.UnmapReclaimsTheSegment : Prop :=
  (∀ w : Word, w.toNat / 2 ^ 28 = 9 → decode w = .ok (.unmap (bitsReg w 0))) ∧
  ∀ (s : State) (rc : Reg),
    (readReg s rc ≠ 0#32 → Mapped s (readReg s rc) →
      ∃ t, exec (.unmap rc) s = .next t ∧ ¬ Mapped t (readReg s rc) ∧ t.free = readReg s rc :: s.free ∧ t.next = s.next ∧
        (∀ id, id ≠ readReg s rc → SegmentSame id s t) ∧ RegsSameBut [] s t ∧ t.pc = s.pc + 1#32 ∧ t.run = s.run ∧
        ChannelsSame s t ∧ ParamsSame s t) ∧
    (readReg s rc = 0#32 → ∃ t, exec (.unmap rc) s = .next t ∧ FaultedAfterIncrement .unmapZero s t) ∧
    (readReg s rc ≠ 0#32 → ¬ Mapped s (readReg s rc) →
      ∃ t, exec (.unmap rc) s = .next t ∧ FaultedAfterIncrement .segmentFault s t)

/-- Every Word of opcode 10 decodes to OUT of its field. If x[rc] is at most 255, OUT completes: the output gains that
byte at its end; every register, the segment table, the input position, run state and parameters are unchanged, the pc
incremented. If it is above 255, it takes InvalidOutputValue, no byte is emitted and nothing but the pc's increment
happens. (R270) -/
def Obligations.OutEmitsOneByte : Prop :=
  (∀ w : Word, w.toNat / 2 ^ 28 = 10 → decode w = .ok (.out (bitsReg w 0))) ∧
  ∀ (s : State) (rc : Reg),
    ((readReg s rc).toNat ≤ 255 →
      ∃ t, exec (.out rc) s = .next t ∧ t.out = s.out ++ [BitVec.ofNat 8 (readReg s rc).toNat] ∧ t.inpos = s.inpos ∧
        RegsSameBut [] s t ∧ TableSame s t ∧ t.pc = s.pc + 1#32 ∧ t.run = s.run ∧ ParamsSame s t) ∧
    (255 < (readReg s rc).toNat → ∃ t, exec (.out rc) s = .next t ∧ FaultedAfterIncrement .invalidOutputValue s t)

/-- Every Word of opcode 11 decodes to IN of its field. If there is a next byte, IN completes: x[rc] is the byte zero-
extended and the input position grows by 1. At end-of-stream it completes: x[rc] is 0xFFFFFFFF and the position stays,
so a later IN gives the same. Every other register, the segment table, the output, the run state and the parameters
are unchanged, the pc incremented. While the host has not answered, no state changes. Two clauses are the model's
choices: that the position stays at end-of-stream (R273 over R47, log entry 8, DEDUCED), and that the waiting IN is a
step that answers the same state (R150, log entry 5, DEDUCED). (46_io.md R271, 46_io.md R273, 40_engine.md R150) -/
def Obligations.InReceivesAByteOrEndOfStream : Prop :=
  (∀ w : Word, w.toNat / 2 ^ 28 = 11 → decode w = .ok (.inp (bitsReg w 0))) ∧
  ∀ (s : State) (rc : Reg),
    (∀ b, s.input[s.inpos]? = some b →
      ∃ t, exec (.inp rc) s = .next t ∧ (readReg t rc).toNat = b.toNat ∧ t.inpos = s.inpos + 1 ∧ t.out = s.out ∧
        RegsSameBut [rc] s t ∧ TableSame s t ∧ t.pc = s.pc + 1#32 ∧ t.run = s.run ∧ ParamsSame s t) ∧
    (s.input.length ≤ s.inpos → s.inputEnded = true →
      ∃ t, exec (.inp rc) s = .next t ∧ readReg t rc = 0xFFFFFFFF#32 ∧ OnlyRegister rc s t) ∧
    (s.input.length ≤ s.inpos → s.inputEnded = false → exec (.inp rc) s = .next s)

/-- Every Word of opcode 12 decodes to LOADP of its fields. If x[rb] is 0, LOADP completes: the pc is x[rc] and nothing
else changes. If x[rb] is another mapped ID, it completes: segment 0 has that segment's length and Words, every other
segment, the free-list, the extent, registers, channels, run state and parameters are unchanged, and the pc is x[rc],
whatever the target. If x[rb] is not 0 and unmapped, it takes SegmentFault and nothing but the pc's increment happens.
(R231) -/
def Obligations.LoadpReplacesTheCodeAndJumps : Prop :=
  (∀ w : Word, w.toNat / 2 ^ 28 = 12 → decode w = .ok (.loadp (bitsReg w 3) (bitsReg w 0))) ∧
  ∀ (s : State) (rb rc : Reg),
    (readReg s rb = 0#32 →
      ∃ t, exec (.loadp rb rc) s = .next t ∧ t.pc = readReg s rc ∧ t.run = s.run ∧ RegsSameBut [] s t ∧ TableSame s t ∧
        ChannelsSame s t ∧ ParamsSame s t) ∧
    (readReg s rb ≠ 0#32 → Mapped s (readReg s rb) →
      ∃ t, exec (.loadp rb rc) s = .next t ∧ t.pc = readReg s rc ∧ segLen t 0#32 = segLen s (readReg s rb) ∧
        (∀ off, segRead t 0#32 off = segRead s (readReg s rb) off) ∧ (∀ id, id ≠ 0#32 → SegmentSame id s t) ∧
        t.free = s.free ∧ t.next = s.next ∧ t.run = s.run ∧ RegsSameBut [] s t ∧ ChannelsSame s t ∧ ParamsSame s t) ∧
    (readReg s rb ≠ 0#32 → ¬ Mapped s (readReg s rb) →
      ∃ t, exec (.loadp rb rc) s = .next t ∧ FaultedAfterIncrement .segmentFault s t)

/-- For every step and every answer the host may give: the step from the state after the answer answers the state after
the step with the same answer given, or the step was the wait of an IN the host had not answered, which changes
nothing (log entry 5, DEDUCED). It holds under either rule for ALLOC_OK, since that sees the architectural state alone
(log entries 3 and 4, the model's own fields). (40_engine.md R152, 40_engine.md R150, 46_io.md R273) -/
def Obligations.MomentOfInputDoesNotMatter : Prop :=
  ∀ (s t : State) (a : HostAnswer), step s = .next t →
    step (hostGives a s) = .next (hostGives a t) ∨
      (t = s ∧ receive s = none ∧ ∃ w, fetch s = .ok w ∧ w.toNat / 2 ^ 28 = 11)

/-- For every start state and every state its run reaches, the host giving input between any two steps: that state is the
state after some number of steps, with nothing given between them, from the start state with all of that input given
at once. So the run is fixed by the start state and INPUT, under either rule for ALLOC_OK. That INPUT and the rule
stand in the state is the model's choice (log entries 3 and 4), as are the waiting steps (log entry 5). (40_engine.md
R152, 40_engine.md R151) -/
def Obligations.RunIsFixedByItsParameters : Prop :=
  ∀ s0 s : State, Reachable s0 s →
    ∃ n, runSteps n { s0 with input := s.input, inputEnded := s.inputEnded } = some s
end

