-- ==== Sys2Proof/Laws/Decode.lean ====
section
/-!
SUPPORT. What each encoding format puts where (R102 to R106): the opcode, each register field, the value of LV, and zeros in
the unused bits (R115).
-/
namespace Sys2Proof

theorem toFin_regBits (r : Reg) : (regBits r).toFin = r := rfl

@[simp] theorem opcode_encRRR (op : BitVec 4) (ra rb rc : Reg) : (encRRR op ra rb rc).extractLsb' 28 4 = op := by
  ext i hi
  simp only [encRRR, BitVec.getElem_extractLsb', BitVec.getLsbD_append]
  interval_cases i <;> rfl

@[simp] theorem ra_encRRR (op : BitVec 4) (ra rb rc : Reg) : regField (encRRR op ra rb rc) 6 = ra := by
  have h : (encRRR op ra rb rc).extractLsb' 6 3 = regBits ra := by
    ext i hi
    simp only [encRRR, BitVec.getElem_extractLsb', BitVec.getLsbD_append]
    interval_cases i <;> rfl
  rw [regField, h, toFin_regBits]

@[simp] theorem rb_encRRR (op : BitVec 4) (ra rb rc : Reg) : regField (encRRR op ra rb rc) 3 = rb := by
  have h : (encRRR op ra rb rc).extractLsb' 3 3 = regBits rb := by
    ext i hi
    simp only [encRRR, BitVec.getElem_extractLsb', BitVec.getLsbD_append]
    interval_cases i <;> rfl
  rw [regField, h, toFin_regBits]

@[simp] theorem rc_encRRR (op : BitVec 4) (ra rb rc : Reg) : regField (encRRR op ra rb rc) 0 = rc := by
  have h : (encRRR op ra rb rc).extractLsb' 0 3 = regBits rc := by
    ext i hi
    simp only [encRRR, BitVec.getElem_extractLsb', BitVec.getLsbD_append]
    interval_cases i <;> rfl
  rw [regField, h, toFin_regBits]

theorem unused_encRRR (op : BitVec 4) (ra rb rc : Reg) : (encRRR op ra rb rc) &&& ~~~0xF00001FF#32 = 0#32 := by
  apply BitVec.eq_of_getLsbD_eq
  intro i hi
  simp only [encRRR, BitVec.getLsbD_and, BitVec.getLsbD_append]
  interval_cases i <;> simp

@[simp] theorem opcode_encBC (op : BitVec 4) (rb rc : Reg) : (encBC op rb rc).extractLsb' 28 4 = op := by
  ext i hi
  simp only [encBC, BitVec.getElem_extractLsb', BitVec.getLsbD_append]
  interval_cases i <;> rfl

@[simp] theorem rb_encBC (op : BitVec 4) (rb rc : Reg) : regField (encBC op rb rc) 3 = rb := by
  have h : (encBC op rb rc).extractLsb' 3 3 = regBits rb := by
    ext i hi
    simp only [encBC, BitVec.getElem_extractLsb', BitVec.getLsbD_append]
    interval_cases i <;> rfl
  rw [regField, h, toFin_regBits]

@[simp] theorem rc_encBC (op : BitVec 4) (rb rc : Reg) : regField (encBC op rb rc) 0 = rc := by
  have h : (encBC op rb rc).extractLsb' 0 3 = regBits rc := by
    ext i hi
    simp only [encBC, BitVec.getElem_extractLsb', BitVec.getLsbD_append]
    interval_cases i <;> rfl
  rw [regField, h, toFin_regBits]

theorem unused_encBC (op : BitVec 4) (rb rc : Reg) : (encBC op rb rc) &&& ~~~0xF000003F#32 = 0#32 := by
  apply BitVec.eq_of_getLsbD_eq
  intro i hi
  simp only [encBC, BitVec.getLsbD_and, BitVec.getLsbD_append]
  interval_cases i <;> simp

@[simp] theorem opcode_encC (op : BitVec 4) (rc : Reg) : (encC op rc).extractLsb' 28 4 = op := by
  ext i hi
  simp only [encC, BitVec.getElem_extractLsb', BitVec.getLsbD_append]
  interval_cases i <;> rfl

@[simp] theorem rc_encC (op : BitVec 4) (rc : Reg) : regField (encC op rc) 0 = rc := by
  have h : (encC op rc).extractLsb' 0 3 = regBits rc := by
    ext i hi
    simp only [encC, BitVec.getElem_extractLsb', BitVec.getLsbD_append]
    interval_cases i <;> rfl
  rw [regField, h, toFin_regBits]

theorem unused_encC (op : BitVec 4) (rc : Reg) : (encC op rc) &&& ~~~0xF0000007#32 = 0#32 := by
  apply BitVec.eq_of_getLsbD_eq
  intro i hi
  simp only [encC, BitVec.getLsbD_and, BitVec.getLsbD_append]
  interval_cases i <;> simp

@[simp] theorem opcode_encN (op : BitVec 4) : (encN op).extractLsb' 28 4 = op := by
  ext i hi
  simp only [encN, BitVec.getElem_extractLsb', BitVec.getLsbD_append]
  interval_cases i <;> rfl

theorem unused_encN (op : BitVec 4) : (encN op) &&& ~~~0xF0000000#32 = 0#32 := by
  apply BitVec.eq_of_getLsbD_eq
  intro i hi
  simp only [encN, BitVec.getLsbD_and, BitVec.getLsbD_append]
  interval_cases i <;> simp

@[simp] theorem opcode_encLV (op : BitVec 4) (ra : Reg) (value : BitVec 25) : (encLV op ra value).extractLsb' 28 4 = op := by
  ext i hi
  simp only [encLV, BitVec.getElem_extractLsb', BitVec.getLsbD_append]
  interval_cases i <;> rfl

@[simp] theorem ra_encLV (op : BitVec 4) (ra : Reg) (value : BitVec 25) : regField (encLV op ra value) 25 = ra := by
  have h : (encLV op ra value).extractLsb' 25 3 = regBits ra := by
    ext i hi
    simp only [encLV, BitVec.getElem_extractLsb', BitVec.getLsbD_append]
    interval_cases i <;> rfl
  rw [regField, h, toFin_regBits]

@[simp] theorem value_encLV (op : BitVec 4) (ra : Reg) (value : BitVec 25) : (encLV op ra value).extractLsb' 0 25 = value := by
  ext i hi
  simp only [encLV, BitVec.getElem_extractLsb', BitVec.getLsbD_append]
  interval_cases i <;> rfl

end Sys2Proof
end

