-- ==== Sys2Proof/Laws/Memory.lean ====
section
/-!
SUPPORT. The store's laws: read after write and frame for the keyed lists, and that every operation of Machine/Memory.lean
keeps the canonical form.
-/
namespace Sys2Proof.Machine

section Keyed
variable {α : Type}

@[simp] theorem lookupAt_nil (k : Nat) : lookupAt k ([] : List (Nat × α)) = none := rfl

theorem lookupAt_cons (k k' : Nat) (v : α) (l : List (Nat × α)) :
    lookupAt k ((k', v) :: l) = if k = k' then some v else lookupAt k l := rfl

/-- Read after write, and every other key as before. -/
theorem lookupAt_insertAt (k k' : Nat) (v : α) (l : List (Nat × α)) :
    lookupAt k' (insertAt k v l) = if k' = k then some v else lookupAt k' l := by
  induction l with
  | nil => simp [insertAt, lookupAt_cons]
  | cons e l ih =>
    obtain ⟨k₀, v₀⟩ := e
    simp only [insertAt]
    split_ifs with h₁ h₂ h₃ h₃ h₃ <;> simp only [lookupAt_cons, ih] <;> split_ifs <;> first | rfl | omega

theorem lookupAt_eraseAt (k k' : Nat) (l : List (Nat × α)) :
    lookupAt k' (eraseAt k l) = if k' = k then none else lookupAt k' l := by
  induction l with
  | nil => simp [eraseAt]
  | cons e l ih =>
    obtain ⟨k₀, v₀⟩ := e
    simp only [eraseAt]
    split_ifs with h₁ h₂ h₂ <;> simp only [lookupAt_cons, ih] <;> split_ifs <;> first | rfl | omega

theorem risingFrom_mono {lo lo' : Nat} {l : List (Nat × α)} (h : risingFrom lo l = true) (hle : lo' ≤ lo) :
    risingFrom lo' l = true := by
  cases l with
  | nil => rfl
  | cons e l =>
    simp only [risingFrom, Bool.and_eq_true, decide_eq_true_eq] at h ⊢
    exact ⟨by omega, h.2⟩

theorem risingFrom_insertAt {lo k : Nat} {v : α} {l : List (Nat × α)} (h : risingFrom lo l = true) (hk : lo ≤ k) :
    risingFrom lo (insertAt k v l) = true := by
  induction l generalizing lo with
  | nil => simp [insertAt, risingFrom, hk]
  | cons e l ih =>
    obtain ⟨k₀, v₀⟩ := e
    simp only [risingFrom, Bool.and_eq_true, decide_eq_true_eq] at h
    simp only [insertAt]
    split_ifs with h₁ h₂
    · simp only [risingFrom, Bool.and_eq_true, decide_eq_true_eq]
      exact ⟨hk, by omega, h.2⟩
    · subst h₂
      simp only [risingFrom, Bool.and_eq_true, decide_eq_true_eq]
      exact ⟨hk, h.2⟩
    · simp only [risingFrom, Bool.and_eq_true, decide_eq_true_eq]
      exact ⟨h.1, ih h.2 (by omega)⟩

theorem risingFrom_eraseAt {lo k : Nat} {l : List (Nat × α)} (h : risingFrom lo l = true) :
    risingFrom lo (eraseAt k l) = true := by
  induction l generalizing lo with
  | nil => rfl
  | cons e l ih =>
    obtain ⟨k₀, v₀⟩ := e
    simp only [risingFrom, Bool.and_eq_true, decide_eq_true_eq] at h
    simp only [eraseAt]
    split_ifs with h₁
    · exact risingFrom_mono (ih h.2) (by omega)
    · simp only [risingFrom, Bool.and_eq_true, decide_eq_true_eq]
      exact ⟨h.1, ih h.2⟩

/-- A rising list holds no key below its start. -/
theorem lookupAt_eq_none_of_rising {lo k : Nat} {l : List (Nat × α)} (h : risingFrom lo l = true) (hk : k < lo) :
    lookupAt k l = none := by
  induction l generalizing lo with
  | nil => rfl
  | cons e l ih =>
    obtain ⟨k₀, v₀⟩ := e
    simp only [risingFrom, Bool.and_eq_true, decide_eq_true_eq] at h
    rw [lookupAt_cons, if_neg (by omega)]
    exact ih h.2 (by omega)

theorem mem_insertAt {k : Nat} {v : α} {l : List (Nat × α)} {e : Nat × α} (h : e ∈ insertAt k v l) :
    e = (k, v) ∨ e ∈ l := by
  induction l with
  | nil => simpa [insertAt] using h
  | cons e' l ih =>
    obtain ⟨k₀, v₀⟩ := e'
    simp only [insertAt] at h
    split_ifs at h
    · simpa using h
    · simp only [List.mem_cons] at h ⊢; tauto
    · simp only [List.mem_cons] at h ⊢
      rcases h with h | h
      · tauto
      · rcases ih h with h | h <;> tauto

theorem mem_eraseAt {k : Nat} {l : List (Nat × α)} {e : Nat × α} (h : e ∈ eraseAt k l) : e ∈ l := by
  induction l with
  | nil => exact h
  | cons e' l ih =>
    obtain ⟨k₀, v₀⟩ := e'
    simp only [eraseAt] at h
    split_ifs at h
    · exact List.mem_cons_of_mem _ (ih h)
    · simp only [List.mem_cons] at h ⊢
      rcases h with h | h
      · exact .inl h
      · exact .inr (ih h)

theorem mem_of_lookupAt {k : Nat} {v : α} {l : List (Nat × α)} (h : lookupAt k l = some v) : (k, v) ∈ l := by
  induction l with
  | nil => simp at h
  | cons e l ih =>
    obtain ⟨k₀, v₀⟩ := e
    rw [lookupAt_cons] at h
    split_ifs at h with hk
    · cases h; subst hk; exact List.mem_cons_self
    · exact List.mem_cons_of_mem _ (ih h)

end Keyed

theorem Segment.wf_iff (g : Segment) :
    g.wf = true ↔ risingFrom 0 g.cells = true ∧ ∀ c ∈ g.cells, c.1 < g.len.toNat ∧ c.2 ≠ 0#32 := by
  simp [Segment.wf, List.all_eq_true]

theorem Memory.wf_iff (m : Memory) :
    Memory.wf m = true ↔ risingFrom 0 m = true ∧ ∀ e ∈ m, e.1 < 2 ^ 32 ∧ e.2.wf = true := by
  simp [Memory.wf, List.all_eq_true]

@[simp] theorem Segment.write_len (g : Segment) (off v : Word) : (g.write off v).len = g.len := rfl

/-- Read after write inside a segment, and every other Word as before (R64). -/
theorem Segment.read_write (g : Segment) (off off' v : Word) :
    (g.write off v).read off' = if off' = off then v else g.read off' := by
  unfold Segment.read Segment.write
  by_cases hv : v = 0#32
  · simp only [hv, ↓reduceIte, lookupAt_eraseAt, BitVec.toNat_inj]
    split_ifs <;> rfl
  · simp only [hv, ↓reduceIte, lookupAt_insertAt, BitVec.toNat_inj]
    split_ifs <;> rfl

@[simp] theorem Segment.read_zeros (n off : Word) : (Segment.zeros n).read off = 0#32 := rfl

@[simp] theorem Segment.zeros_len (n : Word) : (Segment.zeros n).len = n := rfl

theorem Segment.wf_zeros (n : Word) : (Segment.zeros n).wf = true := rfl

/-- A Write inside the bounds keeps a segment canonical. -/
theorem Segment.wf_write {g : Segment} {off v : Word} (h : g.wf = true) (hoff : off < g.len) :
    (g.write off v).wf = true := by
  rw [Segment.wf_iff] at h ⊢
  unfold Segment.write
  split_ifs with hv
  · exact ⟨risingFrom_eraseAt h.1, fun c hc => h.2 c (mem_eraseAt hc)⟩
  · refine ⟨risingFrom_insertAt h.1 (Nat.zero_le _), fun c hc => ?_⟩
    rcases mem_insertAt hc with rfl | hc
    · exact ⟨BitVec.lt_def.mp hoff, hv⟩
    · exact h.2 c hc

@[simp] theorem Memory.segment_put (m : Memory) (id id' : Word) (g : Segment) :
    (m.put id g).segment id' = if id' = id then some g else m.segment id' := by
  simp only [Memory.segment, Memory.put, lookupAt_insertAt, BitVec.toNat_inj]

@[simp] theorem Memory.segment_drop (m : Memory) (id id' : Word) :
    (m.drop id).segment id' = if id' = id then none else m.segment id' := by
  simp only [Memory.segment, Memory.drop, lookupAt_eraseAt, BitVec.toNat_inj]

theorem Memory.wf_put {m : Memory} {id : Word} {g : Segment} (h : Memory.wf m = true) (hg : g.wf = true) :
    Memory.wf (m.put id g) = true := by
  rw [Memory.wf_iff] at h ⊢
  refine ⟨risingFrom_insertAt h.1 (Nat.zero_le _), fun e he => ?_⟩
  rcases mem_insertAt he with rfl | he
  · exact ⟨id.isLt, hg⟩
  · exact h.2 e he

theorem Memory.wf_drop {m : Memory} {id : Word} (h : Memory.wf m = true) : Memory.wf (m.drop id) = true := by
  rw [Memory.wf_iff] at h ⊢
  exact ⟨risingFrom_eraseAt h.1, fun e he => h.2 e (mem_eraseAt he)⟩

theorem Memory.wf_segment {m : Memory} {id : Word} {g : Segment} (h : Memory.wf m = true) (hg : m.segment id = some g) :
    g.wf = true :=
  ((Memory.wf_iff m).mp h |>.2 _ (mem_of_lookupAt hg)).2

/-- The cells of an image are canonical. -/
theorem risingFrom_cellsFrom (lo : Nat) (ws : List Word) : risingFrom lo (cellsFrom lo ws) = true := by
  induction ws generalizing lo with
  | nil => rfl
  | cons w ws ih =>
    simp only [cellsFrom]
    split_ifs
    · exact risingFrom_mono (ih (lo + 1)) (Nat.le_succ lo)
    · simp [risingFrom, ih]

theorem mem_cellsFrom {lo : Nat} {ws : List Word} {c : Nat × Word} (h : c ∈ cellsFrom lo ws) :
    c.1 < lo + ws.length ∧ c.2 ≠ 0#32 := by
  induction ws generalizing lo with
  | nil => simp [cellsFrom] at h
  | cons w ws ih =>
    simp only [cellsFrom] at h
    split_ifs at h with hw
    · have := ih h
      exact ⟨by simp only [List.length_cons]; omega, this.2⟩
    · rcases List.mem_cons.mp h with rfl | h
      · exact ⟨by simp, hw⟩
      · have := ih h
        exact ⟨by simp only [List.length_cons]; omega, this.2⟩

/-- The cells of an image hold exactly its Words. -/
theorem lookupAt_cellsFrom (lo i : Nat) (ws : List Word) :
    (lookupAt (lo + i) (cellsFrom lo ws)).getD 0#32 = ws[i]?.getD 0#32 := by
  induction ws generalizing lo i with
  | nil => simp [cellsFrom]
  | cons w ws ih =>
    simp only [cellsFrom]
    cases i with
    | zero =>
      split_ifs with hw
      · rw [lookupAt_eq_none_of_rising (risingFrom_cellsFrom (lo + 1) ws) (by omega)]
        simp [hw]
      · simp [lookupAt_cons]
    | succ i =>
      have := ih (lo + 1) i
      rw [show lo + 1 + i = lo + (i + 1) by omega] at this
      split_ifs
      · simpa using this
      · rw [lookupAt_cons, if_neg (by omega)]
        simpa using this

theorem segmentOf_wf {ws : List Word} (h : ws.length < 2 ^ 32) : (segmentOf ws).wf = true := by
  rw [Segment.wf_iff]
  refine ⟨risingFrom_cellsFrom 0 ws, fun c hc => ?_⟩
  have := mem_cellsFrom hc
  simp only [segmentOf, BitVec.toNat_ofNat]
  rw [Nat.mod_eq_of_lt h]
  exact ⟨by omega, this.2⟩

/-- The store right after reset is canonical, for every image that passes the loader's check. -/
theorem resetState_mem_wf {ws : List Word} (p : ResetParams) (h : ws.length < 2 ^ 32) :
    Memory.wf (resetState p ws).mem = true := by
  rw [Memory.wf_iff]
  refine ⟨rfl, fun e he => ?_⟩
  obtain rfl : e = (0, segmentOf ws) := by simpa [resetState] using he
  exact ⟨by norm_num, segmentOf_wf h⟩

theorem reset_mem_wf : Memory.wf State.reset.mem = true := by decide

end Sys2Proof.Machine
end

