-- ==== Sys2Proof/Laws/State.lean ====
section
/-!
SUPPORT. One lemma per field per named update of the state, true by rfl, and the register file's read after write.
-/
namespace Sys2Proof.Machine

variable (s : State)

section writeReg_fields
variable (i : Reg) (v : Word)
@[simp] theorem writeReg_regs : (writeReg s i v).regs = s.regs.set i v := rfl
@[simp] theorem writeReg_pc : (writeReg s i v).pc = s.pc := rfl
@[simp] theorem writeReg_mem : (writeReg s i v).mem = s.mem := rfl
@[simp] theorem writeReg_free : (writeReg s i v).free = s.free := rfl
@[simp] theorem writeReg_next : (writeReg s i v).next = s.next := rfl
@[simp] theorem writeReg_run : (writeReg s i v).run = s.run := rfl
@[simp] theorem writeReg_out : (writeReg s i v).out = s.out := rfl
@[simp] theorem writeReg_inpos : (writeReg s i v).inpos = s.inpos := rfl
@[simp] theorem writeReg_input : (writeReg s i v).input = s.input := rfl
@[simp] theorem writeReg_inputEnded : (writeReg s i v).inputEnded = s.inputEnded := rfl
@[simp] theorem writeReg_allocRule : (writeReg s i v).allocRule = s.allocRule := rfl
@[simp] theorem segRead_writeReg (id off : Word) : segRead (writeReg s i v) id off = segRead s id off := rfl
@[simp] theorem segLen_writeReg (id : Word) : segLen (writeReg s i v) id = segLen s id := rfl
@[simp] theorem receive_writeReg : receive (writeReg s i v) = receive s := rfl
end writeReg_fields

section advance_fields
@[simp] theorem advance_regs : (advance s).regs = s.regs := rfl
@[simp] theorem advance_pc : (advance s).pc = s.pc + 1#32 := rfl
@[simp] theorem advance_mem : (advance s).mem = s.mem := rfl
@[simp] theorem advance_free : (advance s).free = s.free := rfl
@[simp] theorem advance_next : (advance s).next = s.next := rfl
@[simp] theorem advance_run : (advance s).run = s.run := rfl
@[simp] theorem advance_out : (advance s).out = s.out := rfl
@[simp] theorem advance_inpos : (advance s).inpos = s.inpos := rfl
@[simp] theorem advance_input : (advance s).input = s.input := rfl
@[simp] theorem advance_inputEnded : (advance s).inputEnded = s.inputEnded := rfl
@[simp] theorem advance_allocRule : (advance s).allocRule = s.allocRule := rfl
@[simp] theorem readReg_advance (r : Reg) : readReg (advance s) r = readReg s r := rfl
@[simp] theorem segRead_advance (id off : Word) : segRead (advance s) id off = segRead s id off := rfl
@[simp] theorem segLen_advance (id : Word) : segLen (advance s) id = segLen s id := rfl
@[simp] theorem receive_advance : receive (advance s) = receive s := rfl
end advance_fields

section setPc_fields
variable (t : Word)
@[simp] theorem setPc_regs : (setPc s t).regs = s.regs := rfl
@[simp] theorem setPc_pc : (setPc s t).pc = t := rfl
@[simp] theorem setPc_mem : (setPc s t).mem = s.mem := rfl
@[simp] theorem setPc_free : (setPc s t).free = s.free := rfl
@[simp] theorem setPc_next : (setPc s t).next = s.next := rfl
@[simp] theorem setPc_run : (setPc s t).run = s.run := rfl
@[simp] theorem setPc_out : (setPc s t).out = s.out := rfl
@[simp] theorem setPc_inpos : (setPc s t).inpos = s.inpos := rfl
@[simp] theorem setPc_input : (setPc s t).input = s.input := rfl
@[simp] theorem setPc_inputEnded : (setPc s t).inputEnded = s.inputEnded := rfl
@[simp] theorem setPc_allocRule : (setPc s t).allocRule = s.allocRule := rfl
@[simp] theorem readReg_setPc (r : Reg) : readReg (setPc s t) r = readReg s r := rfl
@[simp] theorem segRead_setPc (id off : Word) : segRead (setPc s t) id off = segRead s id off := rfl
@[simp] theorem segLen_setPc (id : Word) : segLen (setPc s t) id = segLen s id := rfl
@[simp] theorem receive_setPc : receive (setPc s t) = receive s := rfl
end setPc_fields

section takeFault_fields
variable (k : FaultKind)
@[simp] theorem takeFault_regs : (takeFault k s).regs = s.regs := rfl
@[simp] theorem takeFault_pc : (takeFault k s).pc = s.pc := rfl
@[simp] theorem takeFault_mem : (takeFault k s).mem = s.mem := rfl
@[simp] theorem takeFault_free : (takeFault k s).free = s.free := rfl
@[simp] theorem takeFault_next : (takeFault k s).next = s.next := rfl
@[simp] theorem takeFault_run : (takeFault k s).run = .faulted k := rfl
@[simp] theorem takeFault_out : (takeFault k s).out = s.out := rfl
@[simp] theorem takeFault_inpos : (takeFault k s).inpos = s.inpos := rfl
@[simp] theorem takeFault_input : (takeFault k s).input = s.input := rfl
@[simp] theorem takeFault_inputEnded : (takeFault k s).inputEnded = s.inputEnded := rfl
@[simp] theorem takeFault_allocRule : (takeFault k s).allocRule = s.allocRule := rfl
@[simp] theorem readReg_takeFault (r : Reg) : readReg (takeFault k s) r = readReg s r := rfl
@[simp] theorem segRead_takeFault (id off : Word) : segRead (takeFault k s) id off = segRead s id off := rfl
@[simp] theorem segLen_takeFault (id : Word) : segLen (takeFault k s) id = segLen s id := rfl
@[simp] theorem receive_takeFault : receive (takeFault k s) = receive s := rfl
end takeFault_fields

section haltRun_fields
@[simp] theorem haltRun_regs : (haltRun s).regs = s.regs := rfl
@[simp] theorem haltRun_pc : (haltRun s).pc = s.pc := rfl
@[simp] theorem haltRun_mem : (haltRun s).mem = s.mem := rfl
@[simp] theorem haltRun_free : (haltRun s).free = s.free := rfl
@[simp] theorem haltRun_next : (haltRun s).next = s.next := rfl
@[simp] theorem haltRun_run : (haltRun s).run = .halted := rfl
@[simp] theorem haltRun_out : (haltRun s).out = s.out := rfl
@[simp] theorem haltRun_inpos : (haltRun s).inpos = s.inpos := rfl
@[simp] theorem haltRun_input : (haltRun s).input = s.input := rfl
@[simp] theorem haltRun_inputEnded : (haltRun s).inputEnded = s.inputEnded := rfl
@[simp] theorem haltRun_allocRule : (haltRun s).allocRule = s.allocRule := rfl
@[simp] theorem readReg_haltRun (r : Reg) : readReg (haltRun s) r = readReg s r := rfl
@[simp] theorem segRead_haltRun (id off : Word) : segRead (haltRun s) id off = segRead s id off := rfl
@[simp] theorem segLen_haltRun (id : Word) : segLen (haltRun s) id = segLen s id := rfl
@[simp] theorem receive_haltRun : receive (haltRun s) = receive s := rfl
end haltRun_fields

section setMem_fields
variable (m : Memory)
@[simp] theorem setMem_regs : (setMem s m).regs = s.regs := rfl
@[simp] theorem setMem_pc : (setMem s m).pc = s.pc := rfl
@[simp] theorem setMem_mem : (setMem s m).mem = m := rfl
@[simp] theorem setMem_free : (setMem s m).free = s.free := rfl
@[simp] theorem setMem_next : (setMem s m).next = s.next := rfl
@[simp] theorem setMem_run : (setMem s m).run = s.run := rfl
@[simp] theorem setMem_out : (setMem s m).out = s.out := rfl
@[simp] theorem setMem_inpos : (setMem s m).inpos = s.inpos := rfl
@[simp] theorem setMem_input : (setMem s m).input = s.input := rfl
@[simp] theorem setMem_inputEnded : (setMem s m).inputEnded = s.inputEnded := rfl
@[simp] theorem setMem_allocRule : (setMem s m).allocRule = s.allocRule := rfl
@[simp] theorem readReg_setMem (r : Reg) : readReg (setMem s m) r = readReg s r := rfl
@[simp] theorem receive_setMem : receive (setMem s m) = receive s := rfl
end setMem_fields

section setTable_fields
variable (m : Memory) (f : List Word) (n : Nat)
@[simp] theorem setTable_regs : (setTable s m f n).regs = s.regs := rfl
@[simp] theorem setTable_pc : (setTable s m f n).pc = s.pc := rfl
@[simp] theorem setTable_mem : (setTable s m f n).mem = m := rfl
@[simp] theorem setTable_free : (setTable s m f n).free = f := rfl
@[simp] theorem setTable_next : (setTable s m f n).next = n := rfl
@[simp] theorem setTable_run : (setTable s m f n).run = s.run := rfl
@[simp] theorem setTable_out : (setTable s m f n).out = s.out := rfl
@[simp] theorem setTable_inpos : (setTable s m f n).inpos = s.inpos := rfl
@[simp] theorem setTable_input : (setTable s m f n).input = s.input := rfl
@[simp] theorem setTable_inputEnded : (setTable s m f n).inputEnded = s.inputEnded := rfl
@[simp] theorem setTable_allocRule : (setTable s m f n).allocRule = s.allocRule := rfl
@[simp] theorem readReg_setTable (r : Reg) : readReg (setTable s m f n) r = readReg s r := rfl
@[simp] theorem receive_setTable : receive (setTable s m f n) = receive s := rfl
end setTable_fields

section emit_fields
variable (b : Byte)
@[simp] theorem emit_regs : (emit s b).regs = s.regs := rfl
@[simp] theorem emit_pc : (emit s b).pc = s.pc := rfl
@[simp] theorem emit_mem : (emit s b).mem = s.mem := rfl
@[simp] theorem emit_free : (emit s b).free = s.free := rfl
@[simp] theorem emit_next : (emit s b).next = s.next := rfl
@[simp] theorem emit_run : (emit s b).run = s.run := rfl
@[simp] theorem emit_out : (emit s b).out = s.out ++ [b] := rfl
@[simp] theorem emit_inpos : (emit s b).inpos = s.inpos := rfl
@[simp] theorem emit_input : (emit s b).input = s.input := rfl
@[simp] theorem emit_inputEnded : (emit s b).inputEnded = s.inputEnded := rfl
@[simp] theorem emit_allocRule : (emit s b).allocRule = s.allocRule := rfl
@[simp] theorem readReg_emit (r : Reg) : readReg (emit s b) r = readReg s r := rfl
@[simp] theorem segRead_emit (id off : Word) : segRead (emit s b) id off = segRead s id off := rfl
@[simp] theorem segLen_emit (id : Word) : segLen (emit s b) id = segLen s id := rfl
@[simp] theorem receive_emit : receive (emit s b) = receive s := rfl
end emit_fields

section consumeByte_fields
@[simp] theorem consumeByte_regs : (consumeByte s).regs = s.regs := rfl
@[simp] theorem consumeByte_pc : (consumeByte s).pc = s.pc := rfl
@[simp] theorem consumeByte_mem : (consumeByte s).mem = s.mem := rfl
@[simp] theorem consumeByte_free : (consumeByte s).free = s.free := rfl
@[simp] theorem consumeByte_next : (consumeByte s).next = s.next := rfl
@[simp] theorem consumeByte_run : (consumeByte s).run = s.run := rfl
@[simp] theorem consumeByte_out : (consumeByte s).out = s.out := rfl
@[simp] theorem consumeByte_inpos : (consumeByte s).inpos = s.inpos + 1 := rfl
@[simp] theorem consumeByte_input : (consumeByte s).input = s.input := rfl
@[simp] theorem consumeByte_inputEnded : (consumeByte s).inputEnded = s.inputEnded := rfl
@[simp] theorem consumeByte_allocRule : (consumeByte s).allocRule = s.allocRule := rfl
@[simp] theorem readReg_consumeByte (r : Reg) : readReg (consumeByte s) r = readReg s r := rfl
@[simp] theorem segRead_consumeByte (id off : Word) : segRead (consumeByte s) id off = segRead s id off := rfl
@[simp] theorem segLen_consumeByte (id : Word) : segLen (consumeByte s) id = segLen s id := rfl
end consumeByte_fields

/-- Read after write in the register file (R11, R34). -/
@[simp] theorem readReg_writeReg (i r : Reg) (v : Word) :
    readReg (writeReg s i v) r = if r = i then v else readReg s r := by
  simp [readReg, writeReg, Vector.getElem_set, Fin.ext_iff, eq_comm]

end Sys2Proof.Machine
end

