-- ==== Sys2Proof/Laws/Ops.lean ====
section
/-!
SUPPORT. What each shared operation can do, said once: if it answers, then this; and that each keeps the store canonical.
-/
namespace Sys2Proof.Machine

variable {s t : State}

/-- A Read answers exactly for a mapped ID and an offset below the length (R62). -/
theorem segRead_eq_ok {id off v : Word} :
    segRead s id off = .ok v ↔ ∃ g, s.mem.segment id = some g ∧ off < g.len ∧ g.read off = v := by
  unfold segRead
  split
  · simp_all
  · split_ifs with h <;> simp_all

/-- A Read that fails raises SegmentFault (R62). -/
theorem segRead_error {id off : Word} {k : FaultKind} (h : segRead s id off = .error k) : k = .segmentFault := by
  unfold segRead at h
  split at h
  · cases h; rfl
  · split_ifs at h; cases h; rfl

/-- A Write answers exactly where a Read does, and changes the one segment (R64). -/
theorem segWrite_eq_ok {id off v : Word} :
    segWrite s id off v = .ok t ↔
      ∃ g, s.mem.segment id = some g ∧ off < g.len ∧ t = setMem s (s.mem.put id (g.write off v)) := by
  unfold segWrite
  rcases hg : s.mem.segment id with _ | g
  · simp
  · by_cases h : off < g.len <;> simp [h, @eq_comm _ t]

theorem segWrite_error {id off v : Word} {k : FaultKind} (h : segWrite s id off v = .error k) : k = .segmentFault := by
  unfold segWrite at h
  split at h
  · cases h; rfl
  · split_ifs at h; cases h; rfl

theorem segLen_eq_none {id : Word} : segLen s id = none ↔ s.mem.segment id = none := by simp [segLen]

theorem segLen_eq_some {id n : Word} : segLen s id = some n ↔ ∃ g, s.mem.segment id = some g ∧ g.len = n := by
  simp [segLen]

/-- Inside the bounds a Read answers (R62). -/
theorem segRead_of_lt {id off n : Word} (h : segLen s id = some n) (hn : off.toNat < n.toNat) :
    ∃ v, segRead s id off = .ok v := by
  obtain ⟨g, hg, rfl⟩ := segLen_eq_some.mp h
  exact ⟨_, segRead_eq_ok.mpr ⟨g, hg, hn, rfl⟩⟩

/-- For an unmapped ID or an offset at or beyond the length, a Read fails (R62, R63). -/
theorem segRead_outside {id off : Word}
    (h : segLen s id = none ∨ ∃ n, segLen s id = some n ∧ n.toNat ≤ off.toNat) :
    segRead s id off = .error .segmentFault := by
  rcases h with h | ⟨n, h, hn⟩
  · simp [segRead, segLen_eq_none.mp h]
  · obtain ⟨g, hg, rfl⟩ := segLen_eq_some.mp h
    simpa [segRead, hg, BitVec.le_def] using hn

/-- There a Write fails too (R64). -/
theorem segWrite_outside {id off v : Word}
    (h : segLen s id = none ∨ ∃ n, segLen s id = some n ∧ n.toNat ≤ off.toNat) :
    segWrite s id off v = .error .segmentFault := by
  rcases h with h | ⟨n, h, hn⟩
  · simp [segWrite, segLen_eq_none.mp h]
  · obtain ⟨g, hg, rfl⟩ := segLen_eq_some.mp h
    simpa [segWrite, hg, BitVec.le_def] using hn

/-- What the host gives changes the input fields alone, and the bytes given before stay in front (R273). -/
theorem hostGives_cases (a : HostAnswer) (s : State) :
    hostGives a s = s ∨ (∃ b, a = .byte b ∧ hostGives a s = { s with input := s.input ++ [b] }) ∨
      (a = .endOfStream ∧ hostGives a s = { s with inputEnded := true }) := by
  unfold hostGives
  split_ifs
  · exact .inl rfl
  · cases a with
    | byte b => exact .inr (.inl ⟨b, rfl, rfl⟩)
    | endOfStream => exact .inr (.inr ⟨rfl, rfl⟩)

@[simp] theorem archOf_hostGives (a : HostAnswer) (s : State) : archOf (hostGives a s) = archOf s := by
  rcases hostGives_cases a s with h | ⟨b, -, h⟩ | ⟨-, h⟩ <;> rw [h] <;> rfl

@[simp] theorem hostGives_allocRule (a : HostAnswer) (s : State) : (hostGives a s).allocRule = s.allocRule := by
  rcases hostGives_cases a s with h | ⟨b, -, h⟩ | ⟨-, h⟩ <;> rw [h]

/-- Whether an Allocate is granted depends on the architectural state and the rule alone (R66). -/
theorem allocOk_congr (ha : archOf s = archOf t) (hr : s.allocRule = t.allocRule) (n : Word) : allocOk s n = allocOk t n := by
  simp only [allocOk, ha, hr]

/-- So what the host gives does not change it. -/
@[simp] theorem allocOk_hostGives (a : HostAnswer) (s : State) (n : Word) : allocOk (hostGives a s) n = allocOk s n :=
  allocOk_congr (archOf_hostGives a s) (hostGives_allocRule a s) n

/-- An answer the host has given stays the next one, whatever it gives after it (R273, D13). -/
theorem receive_hostGives {x : HostAnswer} (h : receive s = some x) (a : HostAnswer) :
    receive (hostGives a s) = some x := by
  rcases hostGives_cases a s with e | ⟨b, -, e⟩ | ⟨-, e⟩ <;> rw [e]
  · exact h
  · by_cases hlt : s.inpos < s.input.length
    · simpa [receive, List.getElem?_append_left hlt] using h
    · by_cases he : s.inputEnded = true
      · rw [← e]; simpa [hostGives, he] using h
      · simp [receive, List.getElem?_eq_none (Nat.le_of_not_lt hlt), he] at h
  · by_cases hlt : s.inpos < s.input.length
    · simpa [receive, List.getElem?_eq_getElem hlt] using h
    · by_cases he : s.inputEnded = true
      · simpa [receive, he] using h
      · simp [receive, List.getElem?_eq_none (Nat.le_of_not_lt hlt), he] at h

/-- Allocate answers in two cases: a reclaimed ID is reissued, or the extent grows (R66, R67). -/
theorem segAlloc_eq_ok {n id : Word} :
    segAlloc s n = .ok (id, t) ↔ allocOk s n = true ∧
      ((∃ rest, s.free = id :: rest ∧ t = setTable s (s.mem.put id (Segment.zeros n)) rest s.next) ∨
       (s.free = [] ∧ s.next < 2 ^ 32 ∧ id = BitVec.ofNat 32 s.next ∧
        t = setTable s (s.mem.put id (Segment.zeros n)) [] (s.next + 1))) := by
  unfold segAlloc
  by_cases hk : allocOk s n = false
  · simp [hk]
  · rcases hf : s.free with _ | ⟨id', rest⟩
    · by_cases hn : Config.idCount ≤ s.next
      · have hn' : ¬ s.next < 2 ^ 32 := Nat.not_lt.mpr hn
        simp only [hk, hn, hn', ↓reduceIte, reduceCtorEq, false_and, and_false, exists_false, or_self]
      · have hn' : s.next < 2 ^ 32 := Nat.lt_of_not_le hn
        simp only [hk, hn, hn', ↓reduceIte, reduceCtorEq, Except.ok.injEq, Prod.mk.injEq, true_and, false_and,
          exists_false, false_or]
        constructor
        · rintro ⟨rfl, rfl⟩; exact ⟨rfl, rfl⟩
        · rintro ⟨rfl, rfl⟩; exact ⟨rfl, rfl⟩
    · simp only [hk, ↓reduceIte, Except.ok.injEq, Prod.mk.injEq, List.cons.injEq, reduceCtorEq, false_and, or_false]
      constructor
      · rintro ⟨rfl, rfl⟩; exact ⟨trivial, rest, ⟨rfl, rfl⟩, rfl⟩
      · rintro ⟨-, _, ⟨rfl, rfl⟩, rfl⟩; exact ⟨rfl, rfl⟩

theorem segAlloc_error {n : Word} {k : FaultKind} (h : segAlloc s n = .error k) : k = .resourceExhausted := by
  unfold segAlloc at h
  by_cases hk : allocOk s n = false
  · rw [if_pos hk] at h; cases h; rfl
  · rw [if_neg hk] at h
    rcases hf : s.free with _ | ⟨id', rest⟩ <;> simp only [hf] at h
    · by_cases hn : Config.idCount ≤ s.next
      · rw [if_pos hn] at h; cases h; rfl
      · rw [if_neg hn] at h; cases h
    · cases h

/-- Reclaim answers for a mapped ID other than 0 (R68). -/
theorem segFree_eq_ok {id : Word} :
    segFree s id = .ok t ↔
      id ≠ 0#32 ∧ (s.mem.segment id).isSome ∧ t = setTable s (s.mem.drop id) (id :: s.free) s.next := by
  unfold segFree
  split_ifs with h0
  · simp [h0]
  · rcases hg : s.mem.segment id with _ | g <;> simp [h0, @eq_comm _ t]

theorem segFree_error {id : Word} {k : FaultKind} (h : segFree s id = .error k) :
    (id = 0#32 ∧ k = .unmapZero) ∨ (id ≠ 0#32 ∧ k = .segmentFault) := by
  unfold segFree at h
  split_ifs at h with h0
  · cases h; exact .inl ⟨h0, rfl⟩
  · split at h <;> cases h; exact .inr ⟨h0, rfl⟩

/-- ReplaceCodeSegment does nothing for ID 0, and puts a copy under ID 0 for another mapped ID (R70). -/
theorem segReplace0_eq_ok {src : Word} :
    segReplace0 s src = .ok t ↔
      (src = 0#32 ∧ t = s) ∨ (src ≠ 0#32 ∧ ∃ g, s.mem.segment src = some g ∧ t = setMem s (s.mem.put 0#32 g)) := by
  unfold segReplace0
  split_ifs with h0
  · simp [h0, @eq_comm _ t]
  · rcases hg : s.mem.segment src with _ | g <;> simp [h0, @eq_comm _ t]

theorem segReplace0_error {src : Word} {k : FaultKind} (h : segReplace0 s src = .error k) : k = .segmentFault := by
  unfold segReplace0 at h
  split_ifs at h
  split at h <;> cases h; rfl

/-- Every instruction's execution answers a next state: the effect's, or the fault taken after the increment (R145, R147). -/
theorem retire_cases {f : State → Except FaultKind State} {o : Host.Outcome State Fault Refusal} (h : retire s f = o) :
    (∃ t, f (advance s) = .ok t ∧ o = .next t) ∨
    (∃ k, f (advance s) = .error k ∧ o = .next (takeFault k (advance s))) := by
  unfold retire at h
  split at h
  · exact .inl ⟨_, ‹_›, h.symm⟩
  · exact .inr ⟨_, ‹_›, h.symm⟩

theorem retire_ok {f : State → Except FaultKind State} (h : f (advance s) = .ok t) : retire s f = .next t := by
  simp [retire, h]

theorem retire_error {f : State → Except FaultKind State} {k : FaultKind} (h : f (advance s) = .error k) :
    retire s f = .next (takeFault k (advance s)) := by
  simp [retire, h]

/-! Each request keeps the canonical form. -/

theorem segWrite_wf {id off v : Word} (hs : s.mem.wf = true) (h : segWrite s id off v = .ok t) : t.mem.wf = true := by
  obtain ⟨g, hg, hoff, rfl⟩ := segWrite_eq_ok.mp h
  exact Memory.wf_put hs (Segment.wf_write (Memory.wf_segment hs hg) hoff)

theorem segAlloc_wf {n : Word} {a : Word × State} (hs : s.mem.wf = true) (h : segAlloc s n = .ok a) :
    a.2.mem.wf = true := by
  obtain ⟨-, ⟨rest, -, ht⟩ | ⟨-, -, -, ht⟩⟩ := segAlloc_eq_ok.mp h <;> rw [ht] <;>
    exact Memory.wf_put hs (Segment.wf_zeros n)

theorem segFree_wf {id : Word} (hs : s.mem.wf = true) (h : segFree s id = .ok t) : t.mem.wf = true := by
  obtain ⟨-, -, rfl⟩ := segFree_eq_ok.mp h
  exact Memory.wf_drop hs

theorem segReplace0_wf {src : Word} (hs : s.mem.wf = true) (h : segReplace0 s src = .ok t) : t.mem.wf = true := by
  obtain ⟨-, rfl⟩ | ⟨-, g, hg, rfl⟩ := segReplace0_eq_ok.mp h
  · exact hs
  · exact Memory.wf_put hs (Memory.wf_segment hs hg)

/-- Placing a Word for the next fetch keeps the canonical form too. -/
theorem placeFetchWord_wf (w : Word) (hs : s.mem.wf = true) : (placeFetchWord s w).mem.wf = true := by
  set pc : Word := if s.pc = 0xFFFFFFFF#32 then 0#32 else s.pc with hpc
  set g := (s.mem.segment 0#32).getD (Segment.zeros 0#32) with hgdef
  have hg : g.wf = true := by
    rw [hgdef]
    rcases h0 : s.mem.segment 0#32 with _ | g'
    · exact Segment.wf_zeros 0#32
    · exact Memory.wf_segment hs h0
  have hne : pc ≠ 0xFFFFFFFF#32 := by
    rw [hpc]; split_ifs with h
    · decide
    · exact h
  have key : ∀ len : Word, g.len ≤ len → Segment.wf { g with len := len } = true := by
    intro len hle
    rw [Segment.wf_iff] at hg ⊢
    exact ⟨hg.1, fun c hc => ⟨Nat.lt_of_lt_of_le (hg.2 c hc).1 (BitVec.le_def.mp hle), (hg.2 c hc).2⟩⟩
  unfold placeFetchWord
  simp only [← hpc, ← hgdef]
  refine Memory.wf_put hs (Segment.wf_write (key _ ?_) ?_)
  · split_ifs <;> bv_omega
  · show pc < if g.len ≤ pc then pc + 1#32 else g.len
    split_ifs <;> bv_omega

end Sys2Proof.Machine
end

