-- ==== Sys2Proof/Laws/Exec.lean ====
section
/-!
SUPPORT. Each instruction as an effect under `retire`, and what one execution and one step can answer.
-/
namespace Sys2Proof.Machine

variable (ra rb rc : Reg) (value : Word) (s : State)

theorem exec_cmov : exec (.cmov ra rb rc) s =
    retire s fun s => .ok (if readReg s rc ≠ 0#32 then writeReg s ra (readReg s rb) else s) := rfl

theorem exec_sload : exec (.sload ra rb rc) s =
    retire s fun s => (segRead s (readReg s rb) (readReg s rc)).map (writeReg s ra) := rfl

theorem exec_sstore : exec (.sstore ra rb rc) s =
    retire s fun s => segWrite s (readReg s ra) (readReg s rb) (readReg s rc) := rfl

theorem exec_add : exec (.add ra rb rc) s = retire s fun s => .ok (writeReg s ra (readReg s rb + readReg s rc)) := rfl

theorem exec_mul : exec (.mul ra rb rc) s = retire s fun s => .ok (writeReg s ra (readReg s rb * readReg s rc)) := rfl

theorem exec_div : exec (.div ra rb rc) s = retire s fun s =>
    if readReg s rc = 0#32 then .error .divisionByZero else .ok (writeReg s ra (readReg s rb / readReg s rc)) := rfl

theorem exec_nand : exec (.nand ra rb rc) s =
    retire s fun s => .ok (writeReg s ra (~~~(readReg s rb &&& readReg s rc))) := rfl

theorem exec_halt : exec .halt s = retire s fun s => .ok (haltRun s) := rfl

theorem exec_map : exec (.map rb rc) s =
    retire s fun s => (segAlloc s (readReg s rc)).map (fun a => writeReg a.2 rb a.1) := rfl

theorem exec_unmap : exec (.unmap rc) s = retire s fun s => segFree s (readReg s rc) := rfl

theorem exec_out : exec (.out rc) s = retire s fun s =>
    if 255 < (readReg s rc).toNat then .error .invalidOutputValue else .ok (emit s ((readReg s rc).setWidth 8)) := rfl

theorem exec_inp_waiting (h : receive s = none) : exec (.inp rc) s = .next s := by
  simp [exec, execInp, h]

theorem exec_inp_answered {a : HostAnswer} (h : receive s = some a) :
    exec (.inp rc) s = retire s fun s => .ok (acceptInput rc a s) := by
  simp [exec, execInp, h]

theorem exec_loadp : exec (.loadp rb rc) s =
    retire s fun s => (segReplace0 s (readReg s rb)).map (fun t => setPc t (readReg s rc)) := rfl

theorem exec_lv : exec (.lv ra value) s = retire s fun s => .ok (writeReg s ra value) := rfl

variable {s} {t : State}

/-- What one step can answer as a next state: only a running machine steps, and it takes the fetch's fault, takes
InvalidOpcode, or runs the decoded instruction (R145). -/
theorem step_cases (h : step s = .next t) : s.run = .running ∧
    ((∃ k, fetch s = .error k ∧ t = takeFault k s) ∨
     (∃ w, fetch s = .ok w ∧ decode w = .error .invalidOpcode ∧ t = takeFault .invalidOpcode (advance s)) ∨
     (∃ w i, fetch s = .ok w ∧ decode w = .ok i ∧ exec i s = .next t)) := by
  unfold step at h
  split at h
  · cases h
  · cases h
  · refine ⟨‹_›, ?_⟩
    split at h
    · cases h; exact .inl ⟨_, ‹_›, rfl⟩
    · split at h
      · cases h; exact .inr (.inl ⟨_, ‹_›, ‹_›, rfl⟩)
      · exact .inr (.inr ⟨_, _, ‹_›, ‹_›, h⟩)

/-! The parts of a state that stay, as single facts. -/

theorem TableSame.of_eq (hm : t.mem = s.mem) (hf : t.free = s.free) (hn : t.next = s.next) : TableSame s t := by
  refine ⟨fun id => ⟨?_, fun off => ?_⟩, hf, hn⟩ <;> simp [segLen, segRead, hm]

theorem SegmentSame.of_put {id id' : Word} {g : Segment} (h : t.mem = s.mem.put id g) (hne : id' ≠ id) :
    SegmentSame id' s t := by
  refine ⟨?_, fun off => ?_⟩ <;> simp [segLen, segRead, h, hne]

theorem SegmentSame.of_drop {id id' : Word} (h : t.mem = s.mem.drop id) (hne : id' ≠ id) : SegmentSame id' s t := by
  refine ⟨?_, fun off => ?_⟩ <;> simp [segLen, segRead, h, hne]

/-- The increment and one register write change nothing else. -/
theorem onlyRegister_writeReg (d : Reg) (v : Word) (s : State) : OnlyRegister d s (writeReg (advance s) d v) := by
  refine ⟨rfl, rfl, fun r hr => ?_, TableSame.of_eq rfl rfl rfl, ⟨rfl, rfl⟩, rfl, rfl, rfl⟩
  simp only [List.mem_singleton] at hr
  simp [hr]

/-- The increment and a fault change nothing else. -/
theorem faulted_takeFault (k : FaultKind) (s : State) : FaultedAfterIncrement k s (takeFault k (advance s)) :=
  ⟨rfl, rfl, fun _ _ => by simp, TableSame.of_eq rfl rfl rfl, ⟨rfl, rfl⟩, rfl, rfl, rfl⟩

/-- The states an execution can answer, by what it did: the waiting IN, a fault of the table of R303, a register write, or
one of the instructions with an effect of its own. -/
inductive ExecEffect (s : State) : Instr → State → Prop
  | wait rc : receive s = none → ExecEffect s (.inp rc) s
  | fault i k : k ∈ possibleFaults i → ExecEffect s i (takeFault k (advance s))
  | skip ra rb rc : ExecEffect s (.cmov ra rb rc) (advance s)
  | reg i d v : regWritten i = some d → (∀ rb rc, i ≠ .loadp rb rc) → (∀ a b, i ≠ .map a b) →
      (∀ c, i ≠ .inp c ∨ receive s = some .endOfStream) → ExecEffect s i (writeReg (advance s) d v)
  | byte rc b : s.input[s.inpos]? = some b → ExecEffect s (.inp rc) (consumeByte (writeReg (advance s) rc (b.setWidth 32)))
  | store ra rb rc t : segWrite (advance s) (readReg s ra) (readReg s rb) (readReg s rc) = .ok t →
      ExecEffect s (.sstore ra rb rc) t
  | halt : ExecEffect s .halt (haltRun (advance s))
  | map rb rc id t : segAlloc (advance s) (readReg s rc) = .ok (id, t) → ExecEffect s (.map rb rc) (writeReg t rb id)
  | unmap rc t : segFree (advance s) (readReg s rc) = .ok t → ExecEffect s (.unmap rc) t
  | out rc b : ExecEffect s (.out rc) (emit (advance s) b)
  | loadp rb rc t : segReplace0 (advance s) (readReg s rb) = .ok t →
      ExecEffect s (.loadp rb rc) (setPc t (readReg s rc))

/-- Every execution that answers has one of these effects. -/
theorem exec_effect {i : Instr} (h : exec i s = .next t) : ExecEffect s i t := by
  cases i with
  | cmov ra rb rc =>
    rw [exec_cmov] at h; simp only [retire] at h; cases h
    split_ifs
    · exact .reg _ _ _ rfl (by simp) (by simp) (by simp)
    · exact .skip _ _ _
  | lv ra v => rw [exec_lv] at h; simp only [retire] at h; cases h; exact .reg _ _ _ rfl (by simp) (by simp) (by simp)
  | add ra rb rc => rw [exec_add] at h; simp only [retire] at h; cases h; exact .reg _ _ _ rfl (by simp) (by simp) (by simp)
  | mul ra rb rc => rw [exec_mul] at h; simp only [retire] at h; cases h; exact .reg _ _ _ rfl (by simp) (by simp) (by simp)
  | nand ra rb rc => rw [exec_nand] at h; simp only [retire] at h; cases h; exact .reg _ _ _ rfl (by simp) (by simp) (by simp)
  | div ra rb rc =>
    rw [exec_div] at h
    rcases retire_cases h with ⟨t', h1, h2⟩ | ⟨k, h1, h2⟩ <;> cases h2 <;> split_ifs at h1 <;> cases h1
    · exact .reg _ _ _ rfl (by simp) (by simp) (by simp)
    · exact .fault _ _ (by simp [possibleFaults])
  | halt => rw [exec_halt] at h; simp only [retire] at h; cases h; exact .halt
  | sload ra rb rc =>
    rw [exec_sload] at h
    rcases retire_cases h with ⟨t', h1, h2⟩ | ⟨k, h1, h2⟩ <;> cases h2
    · rcases hr : segRead (advance s) (readReg (advance s) rb) (readReg (advance s) rc) with k | v <;> rw [hr] at h1 <;> cases h1
      exact .reg _ _ _ rfl (by simp) (by simp) (by simp)
    · rcases hr : segRead (advance s) (readReg (advance s) rb) (readReg (advance s) rc) with k | v <;> rw [hr] at h1 <;> cases h1
      rw [segRead_error hr]; exact .fault _ _ (by simp [possibleFaults])
  | sstore ra rb rc =>
    rw [exec_sstore] at h
    rcases retire_cases h with ⟨t', h1, h2⟩ | ⟨k, h1, h2⟩ <;> cases h2
    · exact .store _ _ _ _ h1
    · rw [segWrite_error h1]; exact .fault _ _ (by simp [possibleFaults])
  | unmap rc =>
    rw [exec_unmap] at h
    rcases retire_cases h with ⟨t', h1, h2⟩ | ⟨k, h1, h2⟩ <;> cases h2
    · exact .unmap _ _ h1
    · rcases segFree_error h1 with ⟨-, rfl⟩ | ⟨-, rfl⟩ <;> exact .fault _ _ (by simp [possibleFaults])
  | map rb rc =>
    rw [exec_map] at h
    rcases retire_cases h with ⟨t', h1, h2⟩ | ⟨k, h1, h2⟩ <;> cases h2
    · rcases hr : segAlloc (advance s) (readReg (advance s) rc) with k | ⟨id, v⟩ <;> rw [hr] at h1 <;> cases h1
      exact .map _ _ _ _ hr
    · rcases hr : segAlloc (advance s) (readReg (advance s) rc) with k | ⟨id, v⟩ <;> rw [hr] at h1 <;> cases h1
      rw [segAlloc_error hr]; exact .fault _ _ (by simp [possibleFaults])
  | out rc =>
    rw [exec_out] at h
    rcases retire_cases h with ⟨t', h1, h2⟩ | ⟨k, h1, h2⟩ <;> cases h2 <;> split_ifs at h1 <;> cases h1
    · exact .out _ _
    · exact .fault _ _ (by simp [possibleFaults])
  | loadp rb rc =>
    rw [exec_loadp] at h
    rcases retire_cases h with ⟨t', h1, h2⟩ | ⟨k, h1, h2⟩ <;> cases h2
    · rcases hr : segReplace0 (advance s) (readReg (advance s) rb) with k | v <;> rw [hr] at h1 <;> cases h1
      exact .loadp _ _ _ hr
    · rcases hr : segReplace0 (advance s) (readReg (advance s) rb) with k | v <;> rw [hr] at h1 <;> cases h1
      rw [segReplace0_error hr]; exact .fault _ _ (by simp [possibleFaults])
  | inp rc =>
    rcases hr : receive s with _ | a
    · rw [exec_inp_waiting _ _ hr] at h; cases h; exact .wait _ hr
    · rw [exec_inp_answered _ _ hr] at h; simp only [retire] at h; cases h
      unfold receive at hr
      cases a with
      | byte b =>
        refine .byte _ _ ?_
        split at hr <;> simp_all
        
      | endOfStream => exact .reg _ _ _ rfl (by simp) (by simp) (fun c => .inr (by unfold receive; exact hr))

/-- Every instruction answers a next state from every state: none is refused, and a fault is taken (R145). -/
theorem exec_next (i : Instr) (s : State) : ∃ t, exec i s = .next t := by
  cases i
  all_goals first
    | (rename_i rc; rcases h : receive s with _ | a
       · exact ⟨_, exec_inp_waiting _ _ h⟩
       · obtain ⟨t, -, h⟩ | ⟨k, -, h⟩ := retire_cases (exec_inp_answered rc s h).symm
         · exact ⟨_, h⟩
         · exact ⟨_, h⟩)
    | (simp only [exec_cmov, exec_sload, exec_sstore, exec_add, exec_mul, exec_div, exec_nand, exec_halt, exec_map,
        exec_unmap, exec_out, exec_loadp, exec_lv]
       unfold retire; split <;> exact ⟨_, rfl⟩)

end Sys2Proof.Machine
end

