-- ==== Sys2Proof/Laws/PerInstr.lean ====
section
/-!
SUPPORT. Laws over every instruction as syntax, one lemma per constructor: the opcode stands in bits 31:28 (R101, R111), and
the encoder leaves every unused bit 0 (R115).
-/
namespace Sys2Proof.Laws

/-- The encoded Word holds the instruction's opcode number in bits 31:28. -/
def OpcodeBits.Statement (i : Instr) : Prop := ((encode i).extractLsb' 28 4).toNat = i.opcode

/-- The encoded Word has a 0 in every bit that `keepMask` does not keep. -/
def UnusedBitsClear.Statement (i : Instr) : Prop := encode i &&& ~~~(keepMask i.opcode) = 0#32

theorem OpcodeBits.cmov (ra rb rc : Reg) : OpcodeBits.Statement (.cmov ra rb rc) := by
  simp [OpcodeBits.Statement, encode, Instr.opcode]

theorem OpcodeBits.sload (ra rb rc : Reg) : OpcodeBits.Statement (.sload ra rb rc) := by
  simp [OpcodeBits.Statement, encode, Instr.opcode]

theorem OpcodeBits.sstore (ra rb rc : Reg) : OpcodeBits.Statement (.sstore ra rb rc) := by
  simp [OpcodeBits.Statement, encode, Instr.opcode]

theorem OpcodeBits.add (ra rb rc : Reg) : OpcodeBits.Statement (.add ra rb rc) := by
  simp [OpcodeBits.Statement, encode, Instr.opcode]

theorem OpcodeBits.mul (ra rb rc : Reg) : OpcodeBits.Statement (.mul ra rb rc) := by
  simp [OpcodeBits.Statement, encode, Instr.opcode]

theorem OpcodeBits.div (ra rb rc : Reg) : OpcodeBits.Statement (.div ra rb rc) := by
  simp [OpcodeBits.Statement, encode, Instr.opcode]

theorem OpcodeBits.nand (ra rb rc : Reg) : OpcodeBits.Statement (.nand ra rb rc) := by
  simp [OpcodeBits.Statement, encode, Instr.opcode]

theorem OpcodeBits.halt : OpcodeBits.Statement (.halt) := by
  simp [OpcodeBits.Statement, encode, Instr.opcode]

theorem OpcodeBits.map (rb rc : Reg) : OpcodeBits.Statement (.map rb rc) := by
  simp [OpcodeBits.Statement, encode, Instr.opcode]

theorem OpcodeBits.unmap (rc : Reg) : OpcodeBits.Statement (.unmap rc) := by
  simp [OpcodeBits.Statement, encode, Instr.opcode]

theorem OpcodeBits.out (rc : Reg) : OpcodeBits.Statement (.out rc) := by
  simp [OpcodeBits.Statement, encode, Instr.opcode]

theorem OpcodeBits.inp (rc : Reg) : OpcodeBits.Statement (.inp rc) := by
  simp [OpcodeBits.Statement, encode, Instr.opcode]

theorem OpcodeBits.loadp (rb rc : Reg) : OpcodeBits.Statement (.loadp rb rc) := by
  simp [OpcodeBits.Statement, encode, Instr.opcode]

theorem OpcodeBits.lv (ra : Reg) (value : Word) : OpcodeBits.Statement (.lv ra value) := by
  simp [OpcodeBits.Statement, encode, Instr.opcode]

theorem UnusedBitsClear.cmov (ra rb rc : Reg) : UnusedBitsClear.Statement (.cmov ra rb rc) :=
  unused_encRRR _ ra rb rc

theorem UnusedBitsClear.sload (ra rb rc : Reg) : UnusedBitsClear.Statement (.sload ra rb rc) :=
  unused_encRRR _ ra rb rc

theorem UnusedBitsClear.sstore (ra rb rc : Reg) : UnusedBitsClear.Statement (.sstore ra rb rc) :=
  unused_encRRR _ ra rb rc

theorem UnusedBitsClear.add (ra rb rc : Reg) : UnusedBitsClear.Statement (.add ra rb rc) :=
  unused_encRRR _ ra rb rc

theorem UnusedBitsClear.mul (ra rb rc : Reg) : UnusedBitsClear.Statement (.mul ra rb rc) :=
  unused_encRRR _ ra rb rc

theorem UnusedBitsClear.div (ra rb rc : Reg) : UnusedBitsClear.Statement (.div ra rb rc) :=
  unused_encRRR _ ra rb rc

theorem UnusedBitsClear.nand (ra rb rc : Reg) : UnusedBitsClear.Statement (.nand ra rb rc) :=
  unused_encRRR _ ra rb rc

theorem UnusedBitsClear.halt : UnusedBitsClear.Statement (.halt) :=
  unused_encN _

theorem UnusedBitsClear.map (rb rc : Reg) : UnusedBitsClear.Statement (.map rb rc) :=
  unused_encBC _ rb rc

theorem UnusedBitsClear.unmap (rc : Reg) : UnusedBitsClear.Statement (.unmap rc) :=
  unused_encC _ rc

theorem UnusedBitsClear.out (rc : Reg) : UnusedBitsClear.Statement (.out rc) :=
  unused_encC _ rc

theorem UnusedBitsClear.inp (rc : Reg) : UnusedBitsClear.Statement (.inp rc) :=
  unused_encC _ rc

theorem UnusedBitsClear.loadp (rb rc : Reg) : UnusedBitsClear.Statement (.loadp rb rc) :=
  unused_encBC _ rb rc

theorem UnusedBitsClear.lv (ra : Reg) (value : Word) : UnusedBitsClear.Statement (.lv ra value) := by
  simp [UnusedBitsClear.Statement, keepMask, Instr.opcode]

end Sys2Proof.Laws
end

