-- ==== Sys2Proof/Tests/Slice0.lean ====
section
/-!
SUPPORT. This model's own tests: the WellFormed smoke, words and results written out in 95_test_vectors.md (each theorem
names its vectors), and for every statement with hypotheses a witness that meets them.
-/
namespace Sys2Proof.Tests
open Sys2Proof.Machine

/-- The next state of an outcome, if it is one. -/
def nextOf : Host.Outcome State Fault Refusal → Option State
  | .next t => some t
  | _ => none

/-- The state assumed by 95_test_vectors.md section 2.3: segment 0 is `[A, B, C, D]`, segment 1 is `[11, 22]`, ID 2 is
unmapped (so, being issued, it is free), the extent is 3. -/
def base : State :=
  { State.reset with mem := [(0, ⟨4, [(0, 0xA), (1, 0xB), (2, 0xC), (3, 0xD)]⟩), (1, ⟨2, [(0, 0x11), (1, 0x22)]⟩)], free := [2], next := 3 }

/-- `base` with some registers set. -/
def withRegs (l : List (Reg × Word)) : State := l.foldl (fun s p => writeReg s p.1 p.2) base

/-- The value of a register after one execution. -/
def regAfter (i : Instr) (l : List (Reg × Word)) (r : Reg) : Option Word :=
  (nextOf (exec i (withRegs l))).map fun t => readReg t r

/-- The run state after one execution. -/
def runAfter (i : Instr) (l : List (Reg × Word)) : Option RunState := (nextOf (exec i (withRegs l))).map State.run

/-- One Word of a segment after one execution. -/
def wordAfter (i : Instr) (l : List (Reg × Word)) (id off : Word) : Option Word :=
  (nextOf (exec i (withRegs l))).bind fun t => (segRead t id off).toOption

/-! ## WellFormed: the one check refuses the one ill-formed shape -/

/-- The LV value field has 25 bits (R106): 2^25 does not fit. -/
theorem test_wellFormed_refuses_wide_value : Instr.wellFormed (.lv 0 0x2000000#32) = false := by decide

theorem test_wellFormed_accepts_widest_value : Instr.wellFormed (.lv 0 0x1FFFFFF#32) = true := by decide

/-! ## Decode and encode (section 2.1) -/

/-- D1 to D11. -/
theorem test_decode_rrr :
    decode 0x00000000#32 = .ok (.cmov 0 0 0) ∧ decode 0x000001FF#32 = .ok (.cmov 7 7 7) ∧
    decode 0x0FFFFE00#32 = .ok (.cmov 0 0 0) ∧ decode 0x0FFFFFFF#32 = .ok (.cmov 7 7 7) ∧
    decode 0x1000014A#32 = .ok (.sload 5 1 2) ∧ decode 0x200000CA#32 = .ok (.sstore 3 1 2) ∧
    decode 0x30000053#32 = .ok (.add 1 2 3) ∧ decode 0x4000004F#32 = .ok (.mul 1 1 7) ∧
    decode 0x500000CA#32 = .ok (.div 3 1 2) ∧ decode 0x60000112#32 = .ok (.nand 4 2 2) ∧
    decode 0x6FFFFFFF#32 = .ok (.nand 7 7 7) := by decide

/-- D12 to D24. -/
theorem test_decode_n_bc_c :
    decode 0x70000000#32 = .ok .halt ∧ decode 0x7FFFFFFF#32 = .ok .halt ∧ decode 0x8000000B#32 = .ok (.map 1 3) ∧
    decode 0x800001CB#32 = .ok (.map 1 3) ∧ decode 0x8FFFFFC0#32 = .ok (.map 0 0) ∧
    decode 0x90000001#32 = .ok (.unmap 1) ∧ decode 0x9FFFFFF9#32 = .ok (.unmap 1) ∧
    decode 0xA0000000#32 = .ok (.out 0) ∧ decode 0xAFFFFFF8#32 = .ok (.out 0) ∧ decode 0xB0000007#32 = .ok (.inp 7) ∧
    decode 0xBFFFFFFF#32 = .ok (.inp 7) ∧ decode 0xC0000030#32 = .ok (.loadp 6 0) ∧
    decode 0xCFFFFFC0#32 = .ok (.loadp 0 0) := by decide

/-- D25 to D32. -/
theorem test_decode_lv_invalid :
    decode 0xD0000041#32 = .ok (.lv 0 65) ∧ decode 0xD1FFFFFF#32 = .ok (.lv 0 0x1FFFFFF) ∧
    decode 0xD2000000#32 = .ok (.lv 1 0) ∧ decode 0xDFFFFFFF#32 = .ok (.lv 7 0x1FFFFFF) ∧
    decode 0xE0000000#32 = .error .invalidOpcode ∧ decode 0xEFFFFFFF#32 = .error .invalidOpcode ∧
    decode 0xF0000000#32 = .error .invalidOpcode ∧ decode 0xFFFFFFFF#32 = .error .invalidOpcode := by decide

/-- E1 to E8: encode of decode. -/
theorem test_encode_of_decode :
    (decode 0x0FFFFFFF#32).map encode = .ok 0x000001FF#32 ∧ (decode 0x3ABCDE53#32).map encode = .ok 0x30000053#32 ∧
    (decode 0x7FFFFFFF#32).map encode = .ok 0x70000000#32 ∧ (decode 0x8FFFFFFF#32).map encode = .ok 0x8000003F#32 ∧
    (decode 0xCFFFFFFF#32).map encode = .ok 0xC000003F#32 ∧ (decode 0x9FFFFFFF#32).map encode = .ok 0x90000007#32 ∧
    (decode 0xDFFFFFFF#32).map encode = .ok 0xDFFFFFFF#32 ∧ (decode 0xD0000041#32).map encode = .ok 0xD0000041#32 := by
  decide

/-- The written forms of programs P2 and P3 (R116). -/
theorem test_asm :
    Instr.asm (.lv 3 1) = "LV r3, 1" ∧ Instr.asm (.map 1 3) = "MAP r1, r3" ∧ Instr.asm (.cmov 6 7 4) = "CMOV r6, r7, r4" ∧
    Instr.asm (.sstore 6 0 1) = "SSTORE r6, r0, r1" ∧ Instr.asm .halt = "HALT" ∧ Instr.asm (.inp 1) = "IN r1" := by decide

/-- A table row's bits: the Word itself, and none for an unassigned opcode. -/
theorem test_decodeTableWord :
    decodeTableWord 32 0x30000053 = some (.add 1 2 3) ∧ decodeTableWord 32 0xF0000000 = none := by decide

/-! ## One step of each instruction (sections 2.2 to 2.7) -/

/-- V5. -/
theorem test_cmov_reads_before_it_writes : regAfter (.cmov 1 2 1) [(1, 5), (2, 0)] 1 = some 0#32 := by decide
/-- V2. -/
theorem test_cmov_zero_condition : regAfter (.cmov 1 2 3) [(1, 5), (2, 9), (3, 0)] 1 = some 5#32 := by decide
/-- V8, as the word of D28 run by a step. -/
theorem test_lv_zero_extends :
    (nextOf (step (base.withFetchWord 32 0xDFFFFFFF))).map (fun t => readReg t 7) = some 0x01FFFFFF#32 := by decide
/-- V9. -/
theorem test_lv_zero : regAfter (.lv 1 0) [(1, 0xFFFFFFFF)] 1 = some 0#32 := by decide
/-- M10. -/
theorem test_sload_reads_before_it_writes : regAfter (.sload 1 1 1) [(1, 0)] 1 = some 0xA#32 := by decide
/-- M4. -/
theorem test_sload_bound_is_unsigned :
    runAfter (.sload 5 1 2) [(1, 1), (2, 0xFFFFFFFF)] = some (.faulted .segmentFault) := by decide
/-- M7. -/
theorem test_sstore_operand_order : wordAfter (.sstore 3 1 2) [(3, 1), (1, 0), (2, 0x99)] 1 0 = some 0x99#32 := by decide
/-- M8. -/
theorem test_sstore_at_length_faults :
    runAfter (.sstore 3 1 2) [(3, 1), (1, 2), (2, 0x99)] = some (.faulted .segmentFault) := by decide
/-- A1. -/
theorem test_add_wraps : regAfter (.add 1 2 3) [(2, 0xFFFFFFFF), (3, 1)] 1 = some 0#32 := by decide
/-- A4. -/
theorem test_add_value : regAfter (.add 1 2 3) [(2, 0x12345678), (3, 0x9ABCDEF0)] 1 = some 0xACF13568#32 := by decide
/-- A6. -/
theorem test_mul_wraps : regAfter (.mul 1 2 3) [(2, 0xFFFFFFFF), (3, 0xFFFFFFFF)] 1 = some 1#32 := by decide
/-- A9. -/
theorem test_mul_value : regAfter (.mul 1 2 3) [(2, 0x12345678), (3, 0x9ABCDEF0)] 1 = some 0x242D2080#32 := by decide
/-- A12. -/
theorem test_div_is_unsigned : regAfter (.div 1 2 3) [(2, 0x80000000), (3, 0xFFFFFFFF)] 1 = some 0#32 := by decide
/-- A18. -/
theorem test_div_by_zero : runAfter (.div 1 2 3) [(2, 7), (3, 0)] = some (.faulted .divisionByZero) := by decide
/-- A19. -/
theorem test_nand_value : regAfter (.nand 1 2 3) [(2, 0xF0F0F0F0), (3, 0xFF00FF00)] 1 = some 0x0FFF0FFF#32 := by decide
/-- A22. -/
theorem test_nand_not : regAfter (.nand 1 2 3) [(2, 0x12345678), (3, 0xFFFFFFFF)] 1 = some 0xEDCBA987#32 := by decide
/-- C1, as the word of D13 run by a step. -/
theorem test_halt_increments_pc :
    (nextOf (step ({ base with pc := 3 }.withFetchWord 32 0x7FFFFFFF))).map (fun t => (t.run, t.pc)) =
      some (.halted, 4#32) := by decide
/-- S10 on `base`: the free ID 2 comes back in the register the size was in. -/
theorem test_map_reads_before_it_writes :
    (nextOf (exec (.map 1 1) (withRegs [(1, 3)]))).map (fun t => (readReg t 1, segLen t 2)) = some (2#32, some 3#32) := by
  decide
/-- S1 on a table with no free ID: the extent is issued and grows. -/
theorem test_map_issues_extent :
    (nextOf (exec (.map 1 0) { State.reset with regs := #v[4, 0, 0, 0, 0, 0, 0, 0] })).map
      (fun t => (readReg t 1, t.next, segLen t 1)) = some (1#32, 2, some 4#32) := by decide
/-- S4: the last reclaimed is the top. -/
theorem test_unmap_pushes : (nextOf (exec (.unmap 0) (withRegs [(0, 1)]))).map State.free = some [1#32, 2#32] := by decide
/-- S5. -/
theorem test_unmap_zero : runAfter (.unmap 0) [(0, 0)] = some (.faulted .unmapZero) := by decide
/-- O3. -/
theorem test_out_255 : (nextOf (exec (.out 0) (withRegs [(0, 0xFF)]))).map State.out = some [0xFF#8] := by decide
/-- O4. -/
theorem test_out_256 : (nextOf (exec (.out 0) (withRegs [(0, 0x100)]))).map (fun t => (t.run, t.out)) =
    some (.faulted .invalidOutputValue, []) := by decide
/-- O9. -/
theorem test_in_byte_ff : (nextOf (exec (.inp 1) { base with input := [0xFF] })).map (fun t => (readReg t 1, t.inpos)) =
    some (0xFF#32, 1) := by decide
/-- O7 and O8. -/
theorem test_in_end_of_stream : (nextOf (exec (.inp 1) base)).map (fun t => (readReg t 1, t.inpos)) =
    some (0xFFFFFFFF#32, 0) := by decide
/-- C3: a copy of segment 1 and its length, the pc at the target. -/
theorem test_loadp_copies :
    (nextOf (exec (.loadp 6 0) (withRegs [(6, 1), (0, 0)]))).map (fun t => (t.pc, segLen t 0, segLen t 1)) =
      some (0#32, some 2#32, some 2#32) := by decide
/-- C4. -/
theorem test_loadp_unmapped : runAfter (.loadp 6 0) [(6, 2), (0, 0)] = some (.faulted .segmentFault) := by decide

/-! ## Engine and loader (sections 2.8 and 2.9) -/

/-- G1. -/
theorem test_fetch_at_length : (nextOf (step { base with pc := 4 })).map (fun t => (t.run, t.pc)) =
    some (.faulted .segmentFault, 4#32) := by decide
/-- G2. -/
theorem test_empty_image : (nextOf (step State.reset)).map (fun t => (t.run, t.pc)) =
    some (.faulted .segmentFault, 0#32) := by decide
/-- G3. -/
theorem test_invalid_opcode :
    (nextOf (step ({ base with pc := 2 }.withFetchWord 32 0xE0000000))).map (fun t => (t.run, t.pc)) =
      some (.faulted .invalidOpcode, 3#32) := by decide
/-- R148: no step from a terminal state. -/
theorem test_terminal : step { base with run := .halted } = .fault .halted ∧
    step { base with run := .faulted .unmapZero } = .fault (.faulted .unmapZero) := ⟨rfl, rfl⟩
/-- L1 and L2. -/
theorem test_image_is_big_endian :
    imageWords [0xD0, 0, 0, 0x41, 0xA0, 0, 0, 0, 0x70, 0, 0, 0] = some [0xD0000041, 0xA0000000, 0x70000000] ∧
    imageWords [0x41, 0, 0, 0xD0] = some [0x410000D0] := by decide

/-- The parameters of the witnesses below. -/
def params : ResetParams := ⟨#v[0, 1, 2, 3, 4, 5, 6, 7], [0x68, 0x69], true, .granted⟩

/-- L3 and L4. -/
theorem test_load_length : load params (.bytes [0, 0, 0, 0, 0]) = .error .loadError ∧
    load params (.bytes []) = .ok (resetState params []) := by decide
/-- The block engine on the word of D25, against the step's own expected value (V7). -/
theorem test_blockStep_lv :
    (nextOf (blockStep (base.withFetchWord 32 0xD0000041))).map (fun t => readReg t 0) = some 0x41#32 := by decide
/-- Codes 1 and 7 of R300. -/
theorem test_fault_codes : FaultKind.code .loadError = 1 ∧ FaultKind.code .resourceExhausted = 7 := by decide

/-! ## Witnesses: for each statement with hypotheses, concrete values that meet them, clause by clause -/

/-- The store of `base`, by ID. -/
theorem mapped_base (id : Word) : Mapped base id ↔ id.toNat < 2 := by
  simp only [Mapped, base, Memory.segment, lookupAt]
  by_cases h0 : id.toNat = 0
  · simp [h0]
  · by_cases h1 : id.toNat = 1
    · simp [h1]
    · simp only [h0, h1, ↓reduceIte, Option.isSome_none, Bool.false_eq_true, false_iff, not_lt]; omega

/-- A state that is not the reset state meets the table invariant. -/
theorem test_witness_tableInv : TableInv base where
  canonical := by decide
  codeMapped := (mapped_base _).mpr (by decide)
  freeNodup := by decide
  freeUnmapped id h := by
    obtain rfl : id = 2#32 := by simpa [base] using h
    rw [mapped_base]; decide
  freeIssued id h := by
    obtain rfl : id = 2#32 := by simpa [base] using h
    decide
  mappedIssued id h := by rw [mapped_base] at h; show id.toNat < 3; omega
  issued id h := by
    rw [mapped_base]
    have h : id.toNat < 3 := h
    by_cases h2 : id.toNat = 2
    · right; rw [show id = 2#32 from BitVec.eq_of_toNat_eq h2]; decide
    · left; omega
  nextPos := by decide
  nextBound := by decide
  inputBound := by decide

/-- DecodeAndEncodeAgree: the widest value, the first and last Words of the decoded and the refused opcodes. -/
theorem test_witness_DecodeAndEncodeAgree :
    Instr.wellFormed (.lv 7 0x1FFFFFF) = true ∧ decode 0xDFFFFFFF#32 = .ok (.lv 7 0x1FFFFFF) ∧
    (0xDFFFFFFF#32).toNat / 2 ^ 28 ≤ 13 ∧ 14 ≤ (0xE0000000#32).toNat / 2 ^ 28 := by decide

theorem test_witness_UnusedBitsAreIgnored :
    (0x0FFFFE00#32).toNat / 2 ^ 28 ≤ 13 ∧ (0x00000000#32).toNat / 2 ^ 28 = (0x0FFFFE00#32).toNat / 2 ^ 28 ∧
    0x0FFFFE00#32 &&& keepMask ((0x0FFFFE00#32).toNat / 2 ^ 28) =
      0x00000000#32 &&& keepMask ((0x0FFFFE00#32).toNat / 2 ^ 28) := by decide

theorem test_witness_DecoderVerdictFollowsTheOpcode :
    (0xDFFFFFFF#32).toNat / 2 ^ 28 ≤ 13 ∧ (decoder 0xE0000000#32).invalid = true ∧
    decode 0xE0000000#32 = .error .invalidOpcode := by decide

theorem test_witness_StepRunsTheDecodedInstruction :
    base.run = .running ∧ segRead base 0#32 base.pc = .ok 0xA#32 ∧ decode 0xA#32 = .ok (.cmov 0 1 2) := by decide

/-- FetchBeyondTheCodeSegmentFaults: no segment 0; the pc at the length; the pc at the last offset. -/
theorem test_witness_FetchBeyondTheCodeSegmentFaults :
    segLen { base with mem := [] } 0#32 = none ∧
    (segLen { base with pc := 4 } 0#32 = some 4#32 ∧ (4#32).toNat ≤ ({ base with pc := 4 } : State).pc.toNat) ∧
    (segLen { base with pc := 3 } 0#32 = some 4#32 ∧ ({ base with pc := 3 } : State).pc.toNat < (4#32).toNat) := by decide

theorem test_witness_UnassignedOpcodeFaults :
    (base.withFetchWord 32 0xE0000000).run = .running ∧ fetch (base.withFetchWord 32 0xE0000000) = .ok 0xE0000000#32 ∧
    14 ≤ (0xE0000000#32).toNat / 2 ^ 28 := by decide

/-- A state the step answers: for NoStepLeavesATerminalState, ParametersNeverChange, StepKeepsTableInvariant and
OutputHistoryIsNeverRead. -/
theorem test_witness_a_step : base.run = .running ∧ base.allocRule = .granted ∧ TableInv base ∧ ∃ t, step base = .next t :=
  ⟨rfl, rfl, test_witness_tableInv, _, rfl⟩

/-- FaultsArePrecise: a fault of the fetch, and one of an instruction (DIV r0, r0, r1 with x1 = 0). -/
theorem test_witness_FaultsArePrecise :
    (∃ t, step { base with pc := 4 } = .next t ∧ t.run = .faulted .segmentFault) ∧
    ∃ t, step (base.withFetchWord 32 0x50000001) = .next t ∧ t.run = .faulted .divisionByZero :=
  ⟨⟨_, rfl, rfl⟩, _, rfl, rfl⟩

theorem test_witness_FaultKindsFollowTheTable :
    ∃ t, exec (.unmap 0) base = .next t ∧ base.run = .running ∧ t.run = .faulted .unmapZero := ⟨_, rfl, rfl, rfl⟩

theorem test_witness_OnlyHaltEndsTheRunNormally :
    ∃ t, step (base.withFetchWord 32 0x70000000) = .next t ∧ t.run = .halted := ⟨_, rfl, rfl⟩

theorem test_witness_RegistersWrittenFollowTheTable :
    ∃ t, exec (.lv 3 9) base = .next t ∧ readReg t 3 ≠ readReg base 3 := ⟨_, rfl, by decide⟩

theorem test_witness_UnreadRegistersDoNotMatter :
    1 ∉ regsRead (.add 1 2 3) ∧ base.allocRule = .granted ∧ ∃ t, exec (.add 1 2 3) base = .next t :=
  ⟨by decide, rfl, _, rfl⟩

/-- OnlyLoadpJumps: an instruction that is not LOADP, the waiting IN, and LOADP. -/
theorem test_witness_OnlyLoadpJumps :
    (∃ t, exec .halt base = .next t ∧ ∀ rb rc, Instr.halt ≠ .loadp rb rc) ∧
    (exec (.inp 0) { base with inputEnded := false } = .next { base with inputEnded := false }) ∧
    ∃ t, exec (.loadp 0 1) base = .next t :=
  ⟨⟨_, rfl, by simp⟩, rfl, _, rfl⟩

/-- OutputOnlyGrows: a step of OUT r0 with x0 = 0 (O2). -/
theorem test_witness_OutputOnlyGrows : ∃ t, step (base.withFetchWord 32 0xA0000000) = .next t ∧ t.out = [0#8] := ⟨_, rfl, rfl⟩

/-- InputIsConsumedInOrder: a step of IN r7 with a byte left. -/
theorem test_witness_InputIsConsumedInOrder :
    ∃ t, step ({ base with input := [5] }.withFetchWord 32 0xB0000007) = .next t ∧ t.inpos = 1 := ⟨_, rfl, rfl⟩

/-- ExtentAndLengthsAreStable: the segment that stays, and (UNMAP r1 with x1 = 1) the one that is reclaimed. -/
theorem test_witness_ExtentAndLengthsAreStable :
    TableInv base ∧ (∃ t, step base = .next t) ∧ (1 : Word) ≠ 0#32 ∧ segLen base 1#32 = some 2#32 ∧
    ∃ t, exec (.unmap 1) (withRegs [(1, 1)]) = .next t ∧ segLen t 1#32 = none :=
  ⟨test_witness_tableInv, ⟨_, rfl⟩, by decide, by decide, _, rfl, by decide⟩

/-- The image of scenario A (L1). -/
def imageA : List Byte := [0xD0, 0, 0, 0x41, 0xA0, 0, 0, 0, 0x70, 0, 0, 0]

/-- EveryLoadedMachineMeetsTableInvariant. -/
theorem test_witness_EveryLoadedMachineMeetsTableInvariant :
    load params (.bytes imageA) = .ok (resetState params [0xD0000041, 0xA0000000, 0x70000000]) := by decide

/-- EveryRunKeepsTheFreeListSound: a loaded machine, one step of it, the host's answer after that; a Reclaim and a granted
Allocate. -/
theorem test_witness_EveryRunKeepsTheFreeListSound :
    (∃ s0 s, load params (.bytes imageA) = .ok s0 ∧ step s0 = .next s ∧ Reachable s0 (hostGives (.byte 7) s)) ∧
    ∃ t, segFree base 1#32 = .ok t ∧ allocOk t 5#32 = true :=
  ⟨⟨_, _, rfl, rfl, .host _ (.step .start rfl)⟩, _, rfl, rfl⟩

/-- MomentOfInputDoesNotMatter and RunIsFixedByItsParameters: a step that goes on, the wait of an IN, and a run whose host
answers after a step. -/
theorem test_witness_MomentOfInputDoesNotMatter :
    (∃ t, step base = .next t ∧ t ≠ base) ∧
    step ({ base with inputEnded := false }.withFetchWord 32 0xB0000007) =
      .next ({ base with inputEnded := false }.withFetchWord 32 0xB0000007) ∧
    ∃ s, step { base with inputEnded := false } = .next s ∧
      Reachable { base with inputEnded := false } (hostGives (.byte 7) s) :=
  ⟨⟨_, rfl, by decide⟩, rfl, _, rfl, .host _ (.step .start rfl)⟩

/-- The image of `LOADP r1, r1`, with REG_INIT(1) = 1 and segment 1 not yet mapped, and of `MAP r1, r1` before it. -/
def loadpImage : List Byte := [0x80, 0, 0, 9, 0xC0, 0, 0, 8]

/-- SegmentZeroIsPermanent: in the second step of that run a LOADP replaces segment 0 by one of another length. -/
theorem test_witness_SegmentZeroIsPermanent :
    ∃ s0 s t, load params (.bytes loadpImage) = .ok s0 ∧ Reachable s0 s ∧ step s = .next t ∧
      segLen t 0#32 ≠ segLen s 0#32 :=
  ⟨_, _, _, rfl, .step .start rfl, rfl, by decide⟩

/-- Its clause on more than one Word: LOADP r1, r1 (x1 = 1) from a segment of the same length, whose first two Words
differ from those of segment 0. -/
def loadpSameLength : State :=
  { State.reset with regs := #v[0, 1, 0, 0, 0, 0, 0, 0], mem := [(0, ⟨2, [(0, 0xC0000009)]⟩), (1, ⟨2, [(0, 1), (1, 2)]⟩)], next := 2 }

/-- The image of a program that comes to such a state: LV r1, 2; MAP r1, r1; LV r2, 3; SSTORE r1, r0, r2; LOADP r1, r0, whose
LOADP replaces five Words by two, and among the offsets that both have, changes both. -/
def loadpTwoWordsImage : List Byte :=
  [0xD2, 0, 0, 2, 0x80, 0, 0, 9, 0xD4, 0, 0, 3, 0x20, 0, 0, 0x42, 0xC0, 0, 0, 8]

theorem test_witness_SegmentZeroIsPermanent_words :
    (∃ s0 s t, load ⟨#v[0, 0, 0, 0, 0, 0, 0, 0], [], true, .granted⟩ (.bytes loadpTwoWordsImage) = .ok s0 ∧
      Reachable s0 s ∧ step s = .next t ∧
      ∃ a b, a ≠ b ∧ segRead t 0#32 a ≠ segRead s 0#32 a ∧ segRead t 0#32 b ≠ segRead s 0#32 b) ∧
    ∃ t, step loadpSameLength = .next t ∧ segLen t 0#32 = segLen loadpSameLength 0#32 ∧
      segRead t 0#32 0#32 ≠ segRead loadpSameLength 0#32 0#32 ∧ segRead t 0#32 1#32 ≠ segRead loadpSameLength 0#32 1#32 :=
  ⟨⟨_, _, _, rfl, .step (.step (.step (.step .start rfl) rfl) rfl) rfl, rfl, 0#32, 1#32, by decide, by decide, by decide⟩,
    _, rfl, by decide, by decide, by decide⟩

/-- PcIncrementNeverWraps: the highest offset a fetch can read, and the pc above it. -/
theorem test_witness_PcIncrementNeverWraps :
    fetch { base with pc := 0xFFFFFFFE, mem := [(0, ⟨0xFFFFFFFF, []⟩)] } = .ok 0#32 ∧
    fetch { base with pc := 0xFFFFFFFF, mem := [(0, ⟨0xFFFFFFFF, []⟩)] } = .error .segmentFault := by decide

/-- PlacedWordRunsNext: a pc beyond the code, and the pc no fetch can read from. -/
theorem test_witness_PlacedWordRunsNext :
    decodeTableWord 32 0xD0000041 = some (.lv 0 65) ∧
    step ({ base with pc := 9 }.withFetchWord 32 0xD0000041) = exec (.lv 0 65) ({ base with pc := 9 }.withFetchWord 32 0xD0000041) ∧
    (9 : Word) ≠ 0xFFFFFFFF#32 ∧ ({ base with pc := 0xFFFFFFFF } : State).pc = 0xFFFFFFFF#32 :=
  ⟨by decide, rfl, by decide, rfl⟩

/-- LoaderBuildsTheResetState: the shortest image and the longest. -/
theorem test_witness_LoaderBuildsTheResetState :
    ([] : List Byte).length % 4 = 0 ∧ (List.replicate (4 * (2 ^ 32 - 1)) (0 : Byte)).length % 4 = 0 ∧
    (List.replicate (4 * (2 ^ 32 - 1)) (0 : Byte)).length / 4 ≤ 2 ^ 32 - 1 := by
  rw [List.length_replicate]; decide

/-- LoadErrorInFourCases: a length that is no multiple of 4, and one Word too many. -/
theorem test_witness_LoadErrorInFourCases :
    ([0] : List Byte).length % 4 ≠ 0 ∧ 2 ^ 32 - 1 < (List.replicate (4 * 2 ^ 32) (0 : Byte)).length / 4 := by
  rw [List.length_replicate]; decide

theorem test_witness_ReclaimedIdIsReissuedCleared :
    (1 : Word) ≠ 0#32 ∧ Mapped base 1#32 ∧
    allocOk (setTable base (base.mem.drop 1#32) (1#32 :: base.free) base.next) 4#32 = true := by
  unfold Mapped; decide

/-- StoreIsSeenByTheFetch: the last offset of segment 0, and the offset of the next instruction (pc 0, x1 = 1). -/
theorem test_witness_StoreIsSeenByTheFetch :
    (readReg (withRegs [(1, 3)]) 0 = 0#32 ∧ segLen (withRegs [(1, 3)]) 0#32 = some 4#32 ∧
      (readReg (withRegs [(1, 3)]) 1).toNat < (4#32).toNat) ∧
    (readReg (withRegs [(1, 1)]) 0 = 0#32 ∧ segLen (withRegs [(1, 1)]) 0#32 = some 4#32 ∧
      (readReg (withRegs [(1, 1)]) 1).toNat < (4#32).toNat ∧
      readReg (withRegs [(1, 1)]) 1 = (withRegs [(1, 1)]).pc + 1#32) := by decide

/-- LoadedCodeIsAnIndependentCopy: the source, and a Write that answers to either after it. -/
theorem test_witness_LoadedCodeIsAnIndependentCopy :
    readReg (withRegs [(6, 1)]) 6 ≠ 0#32 ∧ Mapped (withRegs [(6, 1)]) (readReg (withRegs [(6, 1)]) 6) ∧
    ∃ t u v, exec (.loadp 6 0) (withRegs [(6, 1)]) = .next t ∧ segWrite t 1#32 1#32 9#32 = .ok u ∧
      segWrite t 0#32 1#32 9#32 = .ok v :=
  ⟨by decide, by unfold Mapped; decide, _, _, _, rfl, rfl, rfl⟩

theorem test_witness_CanonicalStoresWithEqualReadsAreEqual :
    Memory.wf base.mem = true ∧
    (∀ id, (base.mem.segment id).map Segment.len = (base.mem.segment id).map Segment.len) ∧
    (∀ id g g', base.mem.segment id = some g → base.mem.segment id = some g' → ∀ off : Word,
      off.toNat < g.len.toNat → g.read off = g'.read off) :=
  ⟨by decide, fun _ => rfl, fun _ _ _ h h' _ _ => by rw [h] at h'; cases h'; rfl⟩

theorem test_witness_WaitingInputGoesOnWhenTheHostAnswers :
    ({ base with input := [3], inpos := 1, inputEnded := false } : State).inpos =
      ({ base with input := [3], inpos := 1, inputEnded := false } : State).input.length ∧
    ({ base with input := [3], inpos := 1, inputEnded := false } : State).inputEnded = false := by decide

theorem test_witness_ExitStatusTellsHaltFromFault : exitStatus .halted = some 0 := rfl

/-- IdiomsComputeTheirResults: distinct scratch registers, and a register that holds 0. -/
theorem test_witness_IdiomsComputeTheirResults :
    (4 : Reg) ≠ 5 ∧ (2 : Reg) ≠ 4 ∧ (2 : Reg) ≠ 5 ∧ readReg base 7 = 0#32 ∧ (6 : Reg) ≠ 7 := by decide

/-- The first Words of the fourteen opcodes, for the first clause of each instruction's statement. -/
theorem test_witness_opcodes :
    [0x000001FF#32, 0x1000014A, 0x200000CA, 0x30000053, 0x4000004F, 0x500000CA, 0x60000112, 0x70000000, 0x8000000B, 0x90000001,
      0xA0000000, 0xB0000007, 0xC0000030, 0xD0000041].map (fun w => w.toNat / 2 ^ 28) =
      [0, 1, 2, 3, 4, 5, 6, 7, 8, 9, 10, 11, 12, 13] := by decide

/-- SloadReadsTheAddressedWord and SstoreWritesTheAddressedWord (operands (segment, offset) in r1, r2): the last offset; the
offset at the length, the highest offset, an unmapped ID. -/
theorem test_witness_SloadSstore :
    (segLen (withRegs [(1, 1), (2, 1)]) (readReg (withRegs [(1, 1), (2, 1)]) 1) = some 2#32 ∧
      (readReg (withRegs [(1, 1), (2, 1)]) 2).toNat < (2#32).toNat) ∧
    (segLen (withRegs [(1, 1), (2, 2)]) (readReg (withRegs [(1, 1), (2, 2)]) 1) = some 2#32 ∧
      (2#32).toNat ≤ (readReg (withRegs [(1, 1), (2, 2)]) 2).toNat) ∧
    (segLen (withRegs [(1, 1), (2, 0xFFFFFFFF)]) (readReg (withRegs [(1, 1), (2, 0xFFFFFFFF)]) 1) = some 2#32 ∧
      (2#32).toNat ≤ (readReg (withRegs [(1, 1), (2, 0xFFFFFFFF)]) 2).toNat) ∧
    segLen (withRegs [(1, 2), (2, 0)]) (readReg (withRegs [(1, 2), (2, 0)]) 1) = none := by decide

theorem test_witness_DivIsUnsignedAndFaultsOnZero :
    readReg (withRegs [(3, 1)]) 3 ≠ 0#32 ∧ readReg (withRegs [(3, 0)]) 3 = 0#32 := by decide

/-- MapIssuesTheRightIdOfAZeroSegment: a free ID; the last ID of all; no ID left; the table invariant of its inner clause. -/
theorem test_witness_MapIssuesTheRightIdOfAZeroSegment :
    (allocOk (advance base) (readReg base 0) = true ∧ base.free = 2#32 :: [] ∧ base.next = 3) ∧
    (allocOk (advance { base with free := [], next := 2 ^ 32 - 1 }) (readReg base 0) = true ∧
      ({ base with free := [], next := 2 ^ 32 - 1 } : State).free = [] ∧
      ({ base with free := [], next := 2 ^ 32 - 1 } : State).next < 2 ^ 32 ∧
      (0xFFFFFFFF#32).toNat = ({ base with free := [], next := 2 ^ 32 - 1 } : State).next) ∧
    (({ base with free := [], next := 2 ^ 32 } : State).free = [] ∧
      ({ base with free := [], next := 2 ^ 32 } : State).next = 2 ^ 32) := by decide

/-- Its case of an Allocate that is not granted: there ALLOC_OK is the open function, which may answer either (log entry 4). -/
theorem test_witness_allocation_is_open (n : Word) :
    allocOk { base with allocRule := .hostDecides } n = Config.allocOk n (archOf base) := rfl

/-- UnmapReclaimsTheSegment: a mapped ID, 0, an unmapped ID. -/
theorem test_witness_UnmapReclaimsTheSegment :
    (readReg (withRegs [(0, 1)]) 0 ≠ 0#32 ∧ Mapped (withRegs [(0, 1)]) (readReg (withRegs [(0, 1)]) 0)) ∧ readReg (withRegs [(0, 0)]) 0 = 0#32 ∧
    (readReg (withRegs [(0, 2)]) 0 ≠ 0#32 ∧ ¬ Mapped (withRegs [(0, 2)]) (readReg (withRegs [(0, 2)]) 0)) := by unfold Mapped; decide

theorem test_witness_OutEmitsOneByte :
    (readReg (withRegs [(0, 255)]) 0).toNat ≤ 255 ∧ 255 < (readReg (withRegs [(0, 256)]) 0).toNat := by decide

/-- InReceivesAByteOrEndOfStream: the last byte; the end; no answer yet. -/
theorem test_witness_InReceivesAByteOrEndOfStream :
    ({ base with input := [1, 2], inpos := 1 } : State).input[1]? = some 2#8 ∧
    (base.input.length ≤ base.inpos ∧ base.inputEnded = true) ∧
    (({ base with inputEnded := false } : State).input.length ≤ ({ base with inputEnded := false } : State).inpos ∧
      ({ base with inputEnded := false } : State).inputEnded = false) := by decide

/-- LoadpReplacesTheCodeAndJumps: ID 0, another mapped ID, an unmapped one. -/
theorem test_witness_LoadpReplacesTheCodeAndJumps :
    readReg (withRegs [(6, 0)]) 6 = 0#32 ∧
    (readReg (withRegs [(6, 1)]) 6 ≠ 0#32 ∧ Mapped (withRegs [(6, 1)]) (readReg (withRegs [(6, 1)]) 6)) ∧
    (readReg (withRegs [(6, 2)]) 6 ≠ 0#32 ∧ ¬ Mapped (withRegs [(6, 2)]) (readReg (withRegs [(6, 2)]) 6)) := by unfold Mapped; decide

end Sys2Proof.Tests
end

section
/-!
PROOFS. The segment table along a run (10_state.md R42, R44, R45): what one step can do to it, and the invariant.
-/
namespace Sys2Proof.Machine

variable {s t : State}

/-! What the requests leave alone: each answers the state with, at most, another segment table. -/

theorem segWrite_eq_setTable {id off v : Word} (h : segWrite s id off v = .ok t) :
    ∃ m f n, t = setTable s m f n := by
  obtain ⟨g, -, -, rfl⟩ := segWrite_eq_ok.mp h
  exact ⟨_, s.free, s.next, rfl⟩

theorem segAlloc_eq_setTable {n id : Word} (h : segAlloc s n = .ok (id, t)) : ∃ m f n, t = setTable s m f n := by
  obtain ⟨-, ⟨rest, -, rfl⟩ | ⟨-, -, -, rfl⟩⟩ := segAlloc_eq_ok.mp h <;> exact ⟨_, _, _, rfl⟩

theorem segFree_eq_setTable {id : Word} (h : segFree s id = .ok t) : ∃ m f n, t = setTable s m f n := by
  obtain ⟨-, -, rfl⟩ := segFree_eq_ok.mp h
  exact ⟨_, _, _, rfl⟩

theorem segReplace0_eq_setTable {src : Word} (h : segReplace0 s src = .ok t) : ∃ m f n, t = setTable s m f n := by
  obtain ⟨-, rfl⟩ | ⟨-, g, -, rfl⟩ := segReplace0_eq_ok.mp h
  · exact ⟨t.mem, t.free, t.next, rfl⟩
  · exact ⟨_, s.free, s.next, rfl⟩

/-- A number below 2^32 is the number of its Word. -/
theorem toNat_word_of_lt {k : Nat} (h : k < 2 ^ 32) : (BitVec.ofNat 32 k).toNat = k := by
  rw [BitVec.toNat_ofNat, Nat.mod_eq_of_lt h]

/-! Which IDs are mapped after a put and after a drop. -/

theorem mapped_congr {id : Word} (h : t.mem = s.mem) : Mapped t id ↔ Mapped s id := by simp [Mapped, h]

theorem mapped_put {id id' : Word} {g : Segment} (h : t.mem = s.mem.put id g) :
    Mapped t id' ↔ id' = id ∨ Mapped s id' := by
  by_cases he : id' = id <;> simp [Mapped, h, he]

theorem mapped_drop {id id' : Word} (h : t.mem = s.mem.drop id) : Mapped t id' ↔ id' ≠ id ∧ Mapped s id' := by
  by_cases he : id' = id <;> simp [Mapped, h, he]

theorem mapped_of_segment {id : Word} {g : Segment} (h : s.mem.segment id = some g) : Mapped s id := by simp [Mapped, h]

/-- A put under an ID that is mapped already maps no ID anew. -/
theorem mapped_put_of_mapped {id id' : Word} {g : Segment} (h : t.mem = s.mem.put id g) (hid : Mapped s id) :
    Mapped t id' ↔ Mapped s id' := by
  rw [mapped_put h, or_iff_right_of_imp]
  rintro rfl
  exact hid

theorem SegmentSame.of_mem_eq {id : Word} (h : t.mem = s.mem) : SegmentSame id s t :=
  ⟨by simp [segLen, h], fun off => by simp [segRead, h]⟩

/-! What one step can do to the segment table. -/

/-- What a step from `s` to `t` can have done to the segment table: nothing; a Write; a ReplaceCodeSegment, which a LOADP
asked for; an Allocate of the most recently reclaimed ID, or of the extent; a Reclaim. -/
inductive TableChange (s t : State) : Prop
  | same : t.mem = s.mem → t.free = s.free → t.next = s.next → TableChange s t
  | store {id off v g} : s.mem.segment id = some g → off < g.len → t.mem = s.mem.put id (g.write off v) →
      t.free = s.free → t.next = s.next → TableChange s t
  | replace {w rb rc id g} : fetch s = .ok w → decode w = .ok (.loadp rb rc) → s.mem.segment id = some g →
      t.mem = s.mem.put 0#32 g → t.free = s.free → t.next = s.next → TableChange s t
  | reissue {id n} : s.free = id :: t.free → t.mem = s.mem.put id (Segment.zeros n) → t.next = s.next → TableChange s t
  | extend {id n} : s.free = [] → t.free = [] → s.next < 2 ^ 32 → id = BitVec.ofNat 32 s.next →
      t.mem = s.mem.put id (Segment.zeros n) → t.next = s.next + 1 → TableChange s t
  | reclaim {id} : id ≠ 0#32 → Mapped s id → t.mem = s.mem.drop id → t.free = id :: s.free → t.next = s.next →
      TableChange s t

theorem exec_tableChange {w : Word} {i : Instr} (hw : fetch s = .ok w) (hi : decode w = .ok i) (h : exec i s = .next t) :
    TableChange s t := by
  cases exec_effect h with
  | wait | fault | skip | reg | byte | halt | out => exact .same rfl rfl rfl
  | store ra rb rc _ hr =>
    obtain ⟨g, hg, hoff, rfl⟩ := segWrite_eq_ok.mp hr
    exact .store hg hoff rfl rfl rfl
  | map rb rc id u hr =>
    obtain ⟨-, ⟨rest, hf, rfl⟩ | ⟨hf, hn, hid, rfl⟩⟩ := segAlloc_eq_ok.mp hr
    · exact .reissue hf rfl rfl
    · exact .extend hf rfl hn hid rfl rfl
  | unmap rc _ hr =>
    obtain ⟨h0, hm, rfl⟩ := segFree_eq_ok.mp hr
    exact .reclaim h0 hm rfl rfl rfl
  | loadp rb rc u hr =>
    obtain ⟨-, rfl⟩ | ⟨-, g, hg, rfl⟩ := segReplace0_eq_ok.mp hr
    · exact .same rfl rfl rfl
    · exact .replace hw hi hg rfl rfl rfl

theorem step_tableChange (h : step s = .next t) : TableChange s t := by
  obtain ⟨-, ⟨k, -, rfl⟩ | ⟨w, -, -, rfl⟩ | ⟨w, i, hw, hi, he⟩⟩ := step_cases h
  · exact .same rfl rfl rfl
  · exact .same rfl rfl rfl
  · exact exec_tableChange hw hi he

/-- No step consumes more input than there is (R273). -/
theorem step_inputBound (hs : s.inpos ≤ s.input.length) (h : step s = .next t) : t.inpos ≤ t.input.length := by
  obtain ⟨-, ⟨k, -, rfl⟩ | ⟨w, -, -, rfl⟩ | ⟨w, i, -, -, he⟩⟩ := step_cases h
  · exact hs
  · exact hs
  · cases exec_effect he with
    | wait | fault | skip | reg | halt | out => exact hs
    | byte rc b hb => exact (List.getElem?_eq_some_iff.mp hb).1
    | store _ _ _ _ hr => obtain ⟨m, f, n, rfl⟩ := segWrite_eq_setTable hr; exact hs
    | map _ _ _ _ hr => obtain ⟨m, f, n, rfl⟩ := segAlloc_eq_setTable hr; exact hs
    | unmap _ _ hr => obtain ⟨m, f, n, rfl⟩ := segFree_eq_setTable hr; exact hs
    | loadp _ _ _ hr => obtain ⟨m, f, n, rfl⟩ := segReplace0_eq_setTable hr; exact hs

/-! Each change keeps the invariant. -/

/-- A canonical store with the same IDs mapped meets the invariant with the same free-list and extent. -/
theorem TableInv.congr (hs : TableInv s) (hwf : t.mem.wf = true) (hm : ∀ id, Mapped t id ↔ Mapped s id)
    (hf : t.free = s.free) (hn : t.next = s.next) (hi : t.inpos ≤ t.input.length) : TableInv t where
  canonical := hwf
  codeMapped := (hm _).mpr hs.codeMapped
  freeNodup := hf ▸ hs.freeNodup
  freeUnmapped := by simpa only [hf, hm] using hs.freeUnmapped
  freeIssued := by simpa only [hf, hn] using hs.freeIssued
  mappedIssued := by simpa only [hn, hm] using hs.mappedIssued
  issued := by simpa only [hf, hn, hm] using hs.issued
  nextPos := hn ▸ hs.nextPos
  nextBound := hn ▸ hs.nextBound
  inputBound := hi

theorem TableInv.put {id : Word} {g : Segment} (hs : TableInv s) (hid : Mapped s id) (hg : g.wf = true)
    (hm : t.mem = s.mem.put id g) (hf : t.free = s.free) (hn : t.next = s.next) (hi : t.inpos ≤ t.input.length) :
    TableInv t :=
  hs.congr (hm ▸ Memory.wf_put hs.canonical hg) (fun _ => mapped_put_of_mapped hm hid) hf hn hi

theorem TableInv.reissue {id n : Word} (hs : TableInv s) (hf : s.free = id :: t.free)
    (hm : t.mem = s.mem.put id (Segment.zeros n)) (hn : t.next = s.next) (hi : t.inpos ≤ t.input.length) : TableInv t := by
  obtain ⟨hid, hnodup⟩ := List.nodup_cons.mp (hf ▸ hs.freeNodup)
  have hmem : ∀ {x}, x ∈ s.free ↔ x = id ∨ x ∈ t.free := by simp [hf]
  exact {
    canonical := hm ▸ Memory.wf_put hs.canonical (Segment.wf_zeros n)
    codeMapped := (mapped_put hm).mpr (.inr hs.codeMapped)
    freeNodup := hnodup
    freeUnmapped := fun x hx hx' => by
      rcases (mapped_put hm).mp hx' with rfl | hx'
      · exact hid hx
      · exact hs.freeUnmapped x (hmem.mpr (.inr hx)) hx'
    freeIssued := fun x hx => hn ▸ hs.freeIssued x (hmem.mpr (.inr hx))
    mappedIssued := fun x hx => by
      rw [hn]
      rcases (mapped_put hm).mp hx with rfl | hx
      · exact hs.freeIssued x (hmem.mpr (.inl rfl))
      · exact hs.mappedIssued x hx
    issued := fun x hx => by
      rw [mapped_put hm]
      rcases hs.issued x (hn ▸ hx) with hx | hx
      · exact .inl (.inr hx)
      · exact (hmem.mp hx).imp_left .inl
    nextPos := hn ▸ hs.nextPos
    nextBound := hn ▸ hs.nextBound
    inputBound := hi }

theorem TableInv.extend {id n : Word} (hs : TableInv s) (hf : s.free = []) (hf' : t.free = []) (hlt : s.next < 2 ^ 32)
    (hid : id = BitVec.ofNat 32 s.next) (hm : t.mem = s.mem.put id (Segment.zeros n)) (hn : t.next = s.next + 1)
    (hi : t.inpos ≤ t.input.length) : TableInv t := by
  have hval : id.toNat = s.next := by rw [hid, toNat_word_of_lt hlt]
  exact {
    canonical := hm ▸ Memory.wf_put hs.canonical (Segment.wf_zeros n)
    codeMapped := (mapped_put hm).mpr (.inr hs.codeMapped)
    freeNodup := by simp [hf']
    freeUnmapped := by simp [hf']
    freeIssued := by simp [hf']
    mappedIssued := fun x hx => by
      rw [hn]
      rcases (mapped_put hm).mp hx with rfl | hx
      · omega
      · exact Nat.lt_succ_of_lt (hs.mappedIssued x hx)
    issued := fun x hx => by
      rw [mapped_put hm]
      rw [hn, Nat.lt_succ_iff_lt_or_eq] at hx
      rcases hx with hx | hx
      · exact .inl (.inr ((hs.issued x hx).resolve_right (by simp [hf])))
      · exact .inl (.inl (BitVec.eq_of_toNat_eq (hx.trans hval.symm)))
    nextPos := by omega
    nextBound := by omega
    inputBound := hi }

theorem TableInv.reclaim {id : Word} (hs : TableInv s) (h0 : id ≠ 0#32) (hid : Mapped s id) (hm : t.mem = s.mem.drop id)
    (hf : t.free = id :: s.free) (hn : t.next = s.next) (hi : t.inpos ≤ t.input.length) : TableInv t where
  canonical := hm ▸ Memory.wf_drop hs.canonical
  codeMapped := (mapped_drop hm).mpr ⟨h0.symm, hs.codeMapped⟩
  freeNodup := hf ▸ List.nodup_cons.mpr ⟨fun h => hs.freeUnmapped id h hid, hs.freeNodup⟩
  freeUnmapped x hx hx' := by
    obtain ⟨hne, hx'⟩ := (mapped_drop hm).mp hx'
    rw [hf, List.mem_cons] at hx
    exact hs.freeUnmapped x (hx.resolve_left hne) hx'
  freeIssued x hx := by
    rw [hn]
    rw [hf, List.mem_cons] at hx
    rcases hx with rfl | hx
    · exact hs.mappedIssued x hid
    · exact hs.freeIssued x hx
  mappedIssued x hx := hn ▸ hs.mappedIssued x ((mapped_drop hm).mp hx).2
  issued x hx := by
    rw [mapped_drop hm, hf, List.mem_cons]
    have := hs.issued x (hn ▸ hx)
    tauto
  nextPos := hn ▸ hs.nextPos
  nextBound := hn ▸ hs.nextBound
  inputBound := hi

theorem step_keeps_tableInv (hs : TableInv s) (h : step s = .next t) : TableInv t := by
  have hi := step_inputBound hs.inputBound h
  cases step_tableChange h with
  | same hm hf hn => exact hs.congr (hm ▸ hs.canonical) (fun _ => mapped_congr hm) hf hn hi
  | store hg hoff hm hf hn =>
    exact hs.put (mapped_of_segment hg) (Segment.wf_write (Memory.wf_segment hs.canonical hg) hoff) hm hf hn hi
  | replace _ _ hg hm hf hn => exact hs.put hs.codeMapped (Memory.wf_segment hs.canonical hg) hm hf hn hi
  | reissue hf hm hn => exact hs.reissue hf hm hn hi
  | extend hf hf' hlt hid hm hn => exact hs.extend hf hf' hlt hid hm hn hi
  | reclaim h0 hid hm hf hn => exact hs.reclaim h0 hid hm hf hn hi

/-- Settles O20: each thing a step can do to the table keeps the invariant. -/
theorem stepKeepsTableInvariant : Obligations.StepKeepsTableInvariant := fun _ _ => step_keeps_tableInv

/-! The invariant along every run. -/

theorem hostGives_keeps_tableInv (a : HostAnswer) (hs : TableInv s) : TableInv (hostGives a s) := by
  have hi := hs.inputBound
  rcases hostGives_cases a s with h | ⟨b, -, h⟩ | ⟨-, h⟩ <;> rw [h]
  · exact hs
  · exact hs.congr hs.canonical (fun _ => .rfl) rfl rfl (by simp only [List.length_append]; omega)
  · exact hs.congr hs.canonical (fun _ => .rfl) rfl rfl hi

theorem reachable_tableInv {s0 : State} (h0 : TableInv s0) (h : Reachable s0 s) : TableInv s := by
  induction h with
  | start => exact h0
  | step _ h ih => exact step_keeps_tableInv ih h
  | host a _ ih => exact hostGives_keeps_tableInv a ih

/-- The one ID that is mapped right after reset is 0. -/
theorem mapped_resetState (p : ResetParams) (ws : List Word) (id : Word) : Mapped (resetState p ws) id ↔ id = 0#32 := by
  by_cases h : id = 0#32
  · simp [Mapped, resetState, Memory.segment, lookupAt_cons, h]
  · have hne : id.toNat ≠ 0 := fun hz => h (BitVec.eq_of_toNat_eq hz)
    simp [Mapped, resetState, Memory.segment, lookupAt_cons, h, hne]

theorem resetState_tableInv (p : ResetParams) {ws : List Word} (h : ws.length < 2 ^ 32) : TableInv (resetState p ws) where
  canonical := resetState_mem_wf p h
  codeMapped := (mapped_resetState p ws _).mpr rfl
  freeNodup := List.nodup_nil
  freeUnmapped _ hx := absurd hx List.not_mem_nil
  freeIssued _ hx := absurd hx List.not_mem_nil
  mappedIssued id hid := by
    rw [(mapped_resetState p ws id).mp hid]
    exact Nat.one_pos
  issued id hid := .inl ((mapped_resetState p ws id).mpr (BitVec.eq_of_toNat_eq (Nat.lt_one_iff.mp hid)))
  nextPos := le_rfl
  nextBound := by norm_num [resetState]
  inputBound := Nat.zero_le _

theorem reset_eq_resetState : State.reset = resetState ⟨State.reset.regs, [], true, .granted⟩ [] := rfl

/-- Settles O21: the model's reset state is the loader's for the empty image. -/
theorem resetMeetsTableInvariant : Obligations.ResetMeetsTableInvariant := by
  unfold Obligations.ResetMeetsTableInvariant
  rw [reset_eq_resetState]
  exact resetState_tableInv _ (by norm_num)

/-- Where the loader constructs a machine, it is the reset state of the image's Words, at most 2^32 - 1 of them (R340). -/
theorem load_eq_ok {p : ResetParams} {file : ImageFile} (h : load p file = .ok s) :
    ∃ content ws, file = .bytes content ∧ imageWords content = some ws ∧ ws.length < 2 ^ 32 ∧ s = resetState p ws := by
  cases file with
  | cannotBeOpened | cannotBeRead => cases h
  | bytes content =>
    simp only [load] at h
    split at h
    · cases h
    · split_ifs at h with hlen
      cases h
      exact ⟨content, _, rfl, ‹_›, by simp only [Config.maxImageWords] at hlen; omega, rfl⟩

theorem load_tableInv {p : ResetParams} {file : ImageFile} (h : load p file = .ok s) : TableInv s := by
  obtain ⟨-, ws, -, -, hlen, rfl⟩ := load_eq_ok h
  exact resetState_tableInv p hlen

theorem TableInv.zero_not_free (hs : TableInv s) : 0#32 ∉ s.free := fun h => hs.freeUnmapped _ h hs.codeMapped

/-- Settles O23: the invariant holds along every run, and Reclaim pushes the ID that Allocate pops. -/
theorem everyRunKeepsTheFreeListSound : Obligations.EveryRunKeepsTheFreeListSound := by
  refine ⟨fun p file s0 s hl hr => ?_, fun s t id hfree n hok => ?_⟩
  · have hs := reachable_tableInv (load_tableInv hl) hr
    exact ⟨hs.zero_not_free, hs.freeUnmapped, hs.freeNodup, hs.freeIssued⟩
  · obtain ⟨-, -, rfl⟩ := segFree_eq_ok.mp hfree
    exact ⟨_, segAlloc_eq_ok.mpr ⟨hok, .inl ⟨s.free, rfl, rfl⟩⟩⟩

/-! What an issued ID was before, and what stays of a segment's length. -/

/-- The extent is no mapped ID (R45). -/
theorem TableInv.extent_unmapped (hs : TableInv s) (hlt : s.next < 2 ^ 32) : ¬ Mapped s (BitVec.ofNat 32 s.next) := by
  intro h
  have := hs.mappedIssued _ h
  rw [toNat_word_of_lt hlt] at this
  exact lt_irrefl _ this

/-- A put under an ID that is unmapped leaves every mapped segment alone. -/
theorem segmentSame_of_put_unmapped {id id' : Word} {g : Segment} (hm : t.mem = s.mem.put id g) (hid : ¬ Mapped s id)
    (hid' : Mapped s id') : SegmentSame id' s t :=
  SegmentSame.of_put hm (by rintro rfl; exact hid hid')

/-- An Allocate leaves every mapped segment alone. -/
theorem TableInv.reissue_segmentSame {id id' n : Word} {rest : List Word} (hs : TableInv s) (hf : s.free = id :: rest)
    (hm : t.mem = s.mem.put id (Segment.zeros n)) (hid' : Mapped s id') : SegmentSame id' s t :=
  segmentSame_of_put_unmapped hm (hs.freeUnmapped id (by simp [hf])) hid'

theorem TableInv.extend_segmentSame {id id' n : Word} (hs : TableInv s) (hlt : s.next < 2 ^ 32)
    (hid : id = BitVec.ofNat 32 s.next) (hm : t.mem = s.mem.put id (Segment.zeros n)) (hid' : Mapped s id') :
    SegmentSame id' s t :=
  segmentSame_of_put_unmapped hm (hid ▸ hs.extent_unmapped hlt) hid'

/-- A Write keeps every length (R64). -/
theorem segLen_of_store {id id' off v : Word} {g : Segment} (hg : s.mem.segment id = some g)
    (hm : t.mem = s.mem.put id (g.write off v)) : segLen t id' = segLen s id' := by
  by_cases he : id' = id
  · simp [segLen, hm, he, hg]
  · exact (SegmentSame.of_put hm he).1

theorem mapped_of_segLen {id n : Word} (h : segLen s id = some n) : Mapped s id := by
  obtain ⟨g, hg, -⟩ := segLen_eq_some.mp h
  exact mapped_of_segment hg

theorem step_next_le (h : step s = .next t) : s.next ≤ t.next := by
  cases step_tableChange h with
  | same | store | replace | reissue | extend | reclaim => omega

/-- A segment other than 0 keeps its length or is reclaimed (R43, R45). -/
theorem step_segLen {id n : Word} (hs : TableInv s) (h : step s = .next t) (h0 : id ≠ 0#32) (hn : segLen s id = some n) :
    segLen t id = some n ∨ (segLen t id = none ∧ t.free = id :: s.free) := by
  have hid := mapped_of_segLen hn
  cases step_tableChange h with
  | same hm => exact .inl ((SegmentSame.of_mem_eq hm).1.trans hn)
  | store hg _ hm => exact .inl ((segLen_of_store hg hm).trans hn)
  | replace _ _ _ hm => exact .inl ((SegmentSame.of_put hm h0).1.trans hn)
  | reissue hf hm => exact .inl ((hs.reissue_segmentSame hf hm hid).1.trans hn)
  | extend _ _ hlt he hm => exact .inl ((hs.extend_segmentSame hlt he hm hid).1.trans hn)
  | @reclaim id' _ _ hm hf =>
    by_cases he : id = id'
    · subst he
      exact .inr ⟨by simp [segLen, hm], hf⟩
    · exact .inl ((SegmentSame.of_drop hm he).1.trans hn)

/-- Settles O19. -/
theorem extentAndLengthsAreStable : Obligations.ExtentAndLengthsAreStable := fun _ _ hs h =>
  ⟨step_next_le h, (step_keeps_tableInv hs h).codeMapped, fun _ _ => step_segLen hs h⟩

/-! Segment 0. -/

/-- The number in bits 31:28 of a Word that decodes is the opcode of the instruction (R101, R111). -/
theorem opcode_of_decode {w : Word} {i : Instr} (h : decode w = .ok i) : w.toNat / 2 ^ 28 = i.opcode := by
  have hop : (decoder w).opcode.toNat = w.toNat / 2 ^ 28 := by
    have := w.isLt
    simp only [decoder, BitVec.extractLsb'_toNat, Nat.shiftRight_eq_div_pow]
    omega
  rw [← hop]
  simp only [decode] at h
  split at h <;> cases h <;> assumption

/-- A Write changes at most the Word it addresses. -/
theorem segRead_of_store {id id' off off' v : Word} {g : Segment} (hg : s.mem.segment id = some g)
    (hm : t.mem = s.mem.put id (g.write off v)) (hne : off' ≠ off) : segRead t id' off' = segRead s id' off' := by
  by_cases he : id' = id
  · simp [segRead, hm, he, hg, Segment.read_write, hne]
  · exact (SegmentSame.of_put hm he).2 off'

/-- A step replaces segment 0 by a LOADP's, writes one of its Words, or leaves it alone. -/
theorem step_segmentZero (hs : TableInv s) (h : step s = .next t) :
    (∃ w rb rc, fetch s = .ok w ∧ decode w = .ok (.loadp rb rc)) ∨
    (segLen t 0#32 = segLen s 0#32 ∧ ∃ off, ∀ off', off' ≠ off → segRead t 0#32 off' = segRead s 0#32 off') := by
  have frame : SegmentSame 0#32 s t →
      segLen t 0#32 = segLen s 0#32 ∧ ∃ off, ∀ off', off' ≠ off → segRead t 0#32 off' = segRead s 0#32 off' :=
    fun ⟨hlen, hread⟩ => ⟨hlen, 0#32, fun off' _ => hread off'⟩
  cases step_tableChange h with
  | same hm => exact .inr (frame (.of_mem_eq hm))
  | store hg _ hm => exact .inr ⟨segLen_of_store hg hm, _, fun _ => segRead_of_store hg hm⟩
  | replace hw hi => exact .inl ⟨_, _, _, hw, hi⟩
  | reissue hf hm => exact .inr (frame (hs.reissue_segmentSame hf hm hs.codeMapped))
  | extend _ _ hlt he hm => exact .inr (frame (hs.extend_segmentSame hlt he hm hs.codeMapped))
  | reclaim h0 _ hm => exact .inr (frame (.of_drop hm h0.symm))

/-- Settles O24: by the invariant along every run, and by what a step can do to segment 0. -/
theorem segmentZeroIsPermanent : Obligations.SegmentZeroIsPermanent := by
  refine ⟨fun p file s0 s hl hr => ?_, fun s => by simp [segFree], fun p file s0 s t hl hr h hchange => ?_⟩
  · have hs := reachable_tableInv (load_tableInv hl) hr
    exact ⟨hs.codeMapped, hs.zero_not_free⟩
  · have hs := reachable_tableInv (load_tableInv hl) hr
    rcases step_segmentZero hs h with ⟨w, rb, rc, hw, hi⟩ | ⟨hlen, off, hread⟩
    · exact ⟨w, hw, opcode_of_decode hi⟩
    · rcases hchange with hlen' | ⟨a, b, hab, ha, hb⟩
      · exact absurd hlen hlen'
      · have hoff : ∀ {x}, segRead t 0#32 x ≠ segRead s 0#32 x → x = off := fun hx => by_contra fun hne => hx (hread _ hne)
        exact absurd ((hoff ha).trans (hoff hb).symm) hab

end Sys2Proof.Machine
end

section
/-!
PROOFS. The loader's reset state (R50, R341), and that a canonical store is fixed by its reads (R40, R76).
-/
namespace Sys2Proof.Machine

/-! The Words of an image. -/

theorem toNat_append_byte {n : Nat} (x : BitVec n) (b : Byte) : (x ++ b).toNat = x.toNat * 2 ^ 8 + b.toNat := by
  rw [BitVec.toNat_append, ← Nat.shiftLeft_add_eq_or_of_lt b.isLt, Nat.shiftLeft_eq]

theorem toNat_wordOfBytes (b0 b1 b2 b3 : Byte) :
    (wordOfBytes b0 b1 b2 b3).toNat = b0.toNat * 2 ^ 24 + b1.toNat * 2 ^ 16 + b2.toNat * 2 ^ 8 + b3.toNat := by
  simp only [wordOfBytes, toNat_append_byte]
  omega

/-- An image of 4n bytes holds n Words, Word i made of the four bytes from 4i on (R341). -/
theorem imageWords_of_dvd (B : List Byte) (h : B.length % 4 = 0) :
    ∃ ws, imageWords B = some ws ∧ ws.length = B.length / 4 ∧
      ∀ i < B.length / 4, ws[i]?.getD 0#32 =
        wordOfBytes (B.getD (4 * i) 0) (B.getD (4 * i + 1) 0) (B.getD (4 * i + 2) 0) (B.getD (4 * i + 3) 0) := by
  induction B using imageWords.induct with
  | case1 => exact ⟨[], rfl, rfl, by simp⟩
  | case2 b0 b1 b2 b3 rest ih =>
    simp only [List.length_cons] at h
    obtain ⟨ws, hws, hlen, hget⟩ := ih (by omega)
    refine ⟨wordOfBytes b0 b1 b2 b3 :: ws, by simp [imageWords, hws], by simp only [List.length_cons]; omega, ?_⟩
    rintro (_ | i) hi
    · rfl
    · simpa [Nat.mul_add] using hget i (by simp only [List.length_cons] at hi; omega)
  | case3 B hnil hcons =>
    rcases B with _ | ⟨b0, _ | ⟨b1, _ | ⟨b2, _ | ⟨b3, rest⟩⟩⟩⟩
    · exact absurd rfl hnil
    · cases h
    · cases h
    · cases h
    · exact absurd rfl (hcons b0 b1 b2 b3 rest)

/-- Below its length, segment 0 right after reset reads as the image's Words. -/
theorem segRead_resetState (p : ResetParams) {ws : List Word} (hlen : ws.length < 2 ^ 32) {i : Nat} (hi : i < ws.length) :
    segRead (resetState p ws) 0#32 (BitVec.ofNat 32 i) = .ok (ws[i]?.getD 0#32) := by
  have hval : (BitVec.ofNat 32 i).toNat = i := toNat_word_of_lt (hi.trans hlen)
  refine segRead_eq_ok.mpr ⟨segmentOf ws, rfl, ?_, ?_⟩
  · rw [BitVec.lt_def, hval]
    rwa [segmentOf, toNat_word_of_lt hlen]
  · simpa [Segment.read, segmentOf, hval] using lookupAt_cellsFrom 0 i ws

/-- Settles O28. -/
theorem loaderBuildsTheResetState : Obligations.LoaderBuildsTheResetState := by
  intro p B hmod hlen
  obtain ⟨ws, hws, hwslen, hget⟩ := imageWords_of_dvd B hmod
  have hload : load p (.bytes B) = .ok (resetState p ws) := by
    have : ¬ Config.maxImageWords < ws.length := by simp only [Config.maxImageWords]; omega
    simp only [load, hws, this, ↓reduceIte]
  refine ⟨_, hload, fun _ => rfl, rfl, ?_, fun i hi => ?_, fun id h0 => ?_, rfl, rfl, rfl, rfl, rfl, rfl, rfl, rfl⟩
  · rw [← hwslen]
    rfl
  · refine ⟨_, segRead_resetState p (by omega) (by omega), ?_⟩
    rw [hget i hi, toNat_wordOfBytes]
  · rwa [mapped_resetState]

/-! Canonical lists with equal look-ups are equal. -/

section Keyed
variable {α : Type}

theorem lookupAt_head (e : Nat × α) (l : List (Nat × α)) : lookupAt e.1 (e :: l) = some e.2 := if_pos rfl

/-- The head's key of a rising list is looked up there and nowhere in the tail. -/
theorem lookupAt_tail_of_rising {lo k : Nat} {v : α} {l : List (Nat × α)} (h : risingFrom lo ((k, v) :: l) = true) (k' : Nat) :
    lookupAt k' l = if k' = k then none else lookupAt k' ((k, v) :: l) := by
  simp only [risingFrom, Bool.and_eq_true, decide_eq_true_eq] at h
  rw [lookupAt_cons]
  split_ifs with he
  · exact lookupAt_eq_none_of_rising h.2 (by omega)
  · rfl

/-- Where one rising list has its first key, another that is looked up alike cannot start above it. -/
theorem head_le_of_lookupAt_eq {lo k k' : Nat} {v v' : α} {l l' : List (Nat × α)}
    (h' : risingFrom lo ((k', v') :: l') = true) (heq : lookupAt k ((k, v) :: l) = lookupAt k ((k', v') :: l')) : k' ≤ k := by
  by_contra hlt
  simp only [risingFrom, Bool.and_eq_true, decide_eq_true_eq] at h'
  rw [lookupAt_cons, lookupAt_cons, if_pos rfl, if_neg (by omega), lookupAt_eq_none_of_rising h'.2 (by omega)] at heq
  cases heq

theorem eq_of_lookupAt_eq {lo lo' : Nat} {l l' : List (Nat × α)} (h : risingFrom lo l = true) (h' : risingFrom lo' l' = true)
    (heq : ∀ k, lookupAt k l = lookupAt k l') : l = l' := by
  induction l generalizing lo lo' l' with
  | nil =>
    cases l' with
    | nil => rfl
    | cons e l' => cases (heq e.1).trans (lookupAt_head e l')
  | cons e l ih =>
    cases l' with
    | nil => cases (heq e.1).symm.trans (lookupAt_head e l)
    | cons e' l' =>
      obtain ⟨k, v⟩ := e
      obtain ⟨k', v'⟩ := e'
      obtain rfl : k = k' :=
        le_antisymm (head_le_of_lookupAt_eq h (heq k').symm) (head_le_of_lookupAt_eq h' (heq k))
      obtain rfl : v = v' := by simpa [lookupAt_cons] using heq k
      have htail : l = l' := by
        have hrise := h
        have hrise' := h'
        simp only [risingFrom, Bool.and_eq_true] at hrise hrise'
        refine ih hrise.2 hrise'.2 fun j => ?_
        rw [lookupAt_tail_of_rising h, lookupAt_tail_of_rising h', heq]
      rw [htail]

/-- A key that meets no entry's bound is not listed. -/
theorem lookupAt_eq_none_of_bound {bound k : Nat} {l : List (Nat × α)} (h : ∀ e ∈ l, e.1 < bound) (hk : bound ≤ k) :
    lookupAt k l = none :=
  Option.eq_none_iff_forall_ne_some.mpr fun _ hv => absurd (h _ (mem_of_lookupAt hv)) (Nat.not_lt.mpr hk)

end Keyed

/-- No 0 is listed in canonical cells, so the Word read tells the entry. -/
theorem Segment.lookupAt_cells_of_read {g g' : Segment} (hg : g.wf = true) (hg' : g'.wf = true) (off : Word)
    (h : g.read off = g'.read off) : lookupAt off.toNat g.cells = lookupAt off.toNat g'.cells := by
  obtain ⟨-, hbound⟩ := (Segment.wf_iff g).mp hg
  obtain ⟨-, hbound'⟩ := (Segment.wf_iff g').mp hg'
  simp only [Segment.read] at h
  rcases hv : lookupAt off.toNat g.cells with _ | v <;> rcases hv' : lookupAt off.toNat g'.cells with _ | v' <;>
    simp only [hv, hv', Option.getD_some, Option.getD_none] at h
  · rfl
  · exact absurd h.symm (hbound' _ (mem_of_lookupAt hv')).2
  · exact absurd h (hbound _ (mem_of_lookupAt hv)).2
  · rw [h]

theorem Segment.eq_of_reads {g g' : Segment} (hg : g.wf = true) (hg' : g'.wf = true) (hlen : g.len = g'.len)
    (hread : ∀ off : Word, off.toNat < g.len.toNat → g.read off = g'.read off) : g = g' := by
  obtain ⟨hrise, hbound⟩ := (Segment.wf_iff g).mp hg
  obtain ⟨hrise', hbound'⟩ := (Segment.wf_iff g').mp hg'
  have hcells : g.cells = g'.cells := eq_of_lookupAt_eq hrise hrise' fun k => by
    by_cases hk : k < g.len.toNat
    · have hval : (BitVec.ofNat 32 k).toNat = k := toNat_word_of_lt (hk.trans g.len.isLt)
      simpa [hval] using Segment.lookupAt_cells_of_read hg hg' (BitVec.ofNat 32 k) (hread _ (by rwa [hval]))
    · rw [lookupAt_eq_none_of_bound (fun c hc => (hbound c hc).1) (Nat.le_of_not_lt hk),
        lookupAt_eq_none_of_bound (fun c hc => (hbound' c hc).1) (hlen ▸ Nat.le_of_not_lt hk)]
  exact congrArg₂ Segment.mk hlen hcells

/-- Settles O33: the IDs' look-ups agree, segment by segment. -/
theorem canonicalStoresWithEqualReadsAreEqual : Obligations.CanonicalStoresWithEqualReadsAreEqual := by
  intro m m' hm hm' hlen hread
  obtain ⟨hrise, hbound⟩ := (Memory.wf_iff m).mp hm
  obtain ⟨hrise', hbound'⟩ := (Memory.wf_iff m').mp hm'
  have hseg : ∀ id, m.segment id = m'.segment id := fun id => by
    have hl := hlen id
    rcases h : m.segment id with _ | g <;> rcases h' : m'.segment id with _ | g' <;>
      simp only [h, h', Option.map_some, Option.map_none, reduceCtorEq, Option.some.injEq] at hl
    · rfl
    · rw [Segment.eq_of_reads (Memory.wf_segment hm h) (Memory.wf_segment hm' h') hl (hread id g g' h h')]
  refine eq_of_lookupAt_eq hrise hrise' fun k => ?_
  by_cases hk : k < 2 ^ 32
  · simpa only [Memory.segment, toNat_word_of_lt hk] using hseg (BitVec.ofNat 32 k)
  · rw [lookupAt_eq_none_of_bound (fun e he => (hbound e he).1) (Nat.le_of_not_lt hk),
      lookupAt_eq_none_of_bound (fun e he => (hbound' e he).1) (Nat.le_of_not_lt hk)]

end Sys2Proof.Machine
end

section
/-!
PROOFS. What one instruction may change and what it may look at: the registers of R33, the pc (R36, R38), the output (R49).
-/
namespace Sys2Proof.Machine

variable {s t : State}

theorem eq_of_readReg_writeReg_ne {d r : Reg} {v : Word} (h : readReg (writeReg s d v) r ≠ readReg s r) : r = d := by
  by_contra hne
  exact h (by simp [hne])

/-- Settles O13: no request of the segment table writes a register, and each effect writes the one R33 names. -/
theorem registersWrittenFollowTheTable : Obligations.RegistersWrittenFollowTheTable := by
  intro i s t h r hne
  cases exec_effect h with
  | wait | fault | skip | halt | out => exact absurd rfl hne
  | reg _ d v hd => rw [hd, eq_of_readReg_writeReg_ne (s := advance s) hne]
  | byte rc b => rw [eq_of_readReg_writeReg_ne (s := advance s) hne, regWritten]
  | store _ _ _ _ hr => obtain ⟨m, f, n, rfl⟩ := segWrite_eq_setTable hr; exact absurd rfl hne
  | map _ _ _ _ hr =>
    obtain ⟨m, f, n, rfl⟩ := segAlloc_eq_setTable hr
    rw [eq_of_readReg_writeReg_ne (s := setTable (advance s) m f n) hne, regWritten]
  | unmap _ _ hr => obtain ⟨m, f, n, rfl⟩ := segFree_eq_setTable hr; exact absurd rfl hne
  | loadp _ _ _ hr => obtain ⟨m, f, n, rfl⟩ := segReplace0_eq_setTable hr; exact absurd rfl hne

/-- Settles O15: `retire` increments the pc, and of the effects LOADP's alone sets it. -/
theorem onlyLoadpJumps : Obligations.OnlyLoadpJumps := by
  refine ⟨fun i s t h hi => ?_, fun rb rc s t h => ?_⟩
  · cases exec_effect h with
    | wait rc hr => exact .inr ⟨rfl, hr, rc, rfl⟩
    | fault | skip | reg | byte | halt | out => exact .inl rfl
    | store _ _ _ _ hr => obtain ⟨m, f, n, rfl⟩ := segWrite_eq_setTable hr; exact .inl rfl
    | map _ _ _ _ hr => obtain ⟨m, f, n, rfl⟩ := segAlloc_eq_setTable hr; exact .inl rfl
    | unmap _ _ hr => obtain ⟨m, f, n, rfl⟩ := segFree_eq_setTable hr; exact .inl rfl
    | loadp rb rc => exact absurd rfl (hi rb rc)
  · cases exec_effect h with
    | fault _ k hk =>
      obtain rfl : k = .segmentFault := by simpa [possibleFaults] using hk
      exact .inr ⟨rfl, rfl⟩
    | reg _ d v hd hne => exact absurd rfl (hne rb rc)
    | loadp => exact .inl rfl

/-- A running machine answers a next state (R145). -/
theorem step_next (h : s.run = .running) : ∃ t, step s = .next t := by
  simp only [step, h]
  split
  · exact ⟨_, rfl⟩
  · split
    · exact ⟨_, rfl⟩
    · exact exec_next _ s

/-- Settles O9. -/
theorem noStepLeavesATerminalState : Obligations.NoStepLeavesATerminalState :=
  ⟨fun _ _ h => (step_cases h).1, fun _ => step_next⟩

/-- Settles O25: the length of segment 0 is a Word, so an offset below it has a successor. -/
theorem pcIncrementNeverWraps : Obligations.PcIncrementNeverWraps := by
  refine fun s => ⟨fun w hw => ?_, fun hpc => ?_, by simp⟩
  · obtain ⟨g, -, hlt, -⟩ := segRead_eq_ok.mp hw
    simp only [advance_pc]
    bv_omega
  · rcases h : fetch s with k | w
    · rw [segRead_error h]
    · obtain ⟨g, -, hlt, -⟩ := segRead_eq_ok.mp h
      rw [hpc] at hlt
      bv_omega

/-! Noninterference: two states that differ in some registers and in the bytes emitted so far go on to differ in no more,
if the instruction reads none of those registers. -/

/-- `s'` is `s` with other values, perhaps, in the registers of `ds`, and with the bytes `old` before its output history. -/
structure AgreesBut (ds : List Reg) (old : List Byte) (s s' : State) : Prop where
  regs : RegsSameBut ds s s'
  rest : s' = { s with regs := s'.regs, out := old ++ s.out }

/-- Two effects answer states so related, or take the same fault. -/
inductive AnswersAgree (ds : List Reg) (old : List Byte) : Except FaultKind State → Except FaultKind State → Prop
  | ok {t t' : State} : AgreesBut ds old t t' → AnswersAgree ds old (.ok t) (.ok t')
  | error (k : FaultKind) : AnswersAgree ds old (.error k) (.error k)

section AgreesBut
variable {ds : List Reg} {old : List Byte} {s' : State} (h : AgreesBut ds old s s')
include h

theorem AgreesBut.mem : s'.mem = s.mem := (congrArg State.mem h.rest :)
theorem AgreesBut.free : s'.free = s.free := (congrArg State.free h.rest :)
theorem AgreesBut.next : s'.next = s.next := (congrArg State.next h.rest :)
theorem AgreesBut.run : s'.run = s.run := (congrArg State.run h.rest :)
theorem AgreesBut.fetch : fetch s' = fetch s := (congrArg Machine.fetch h.rest :)
theorem AgreesBut.receive : receive s' = receive s := (congrArg Machine.receive h.rest :)
theorem AgreesBut.segRead (id off : Word) : segRead s' id off = segRead s id off :=
  (congrArg (Machine.segRead · id off) h.rest :)

/-! Each update of the state keeps the relation. -/

theorem AgreesBut.advance : AgreesBut ds old (advance s) (advance s') := ⟨h.regs, congrArg Machine.advance h.rest⟩

theorem AgreesBut.takeFault (k : FaultKind) : AgreesBut ds old (takeFault k s) (takeFault k s') :=
  ⟨h.regs, congrArg (Machine.takeFault k) h.rest⟩

theorem AgreesBut.haltRun : AgreesBut ds old (haltRun s) (haltRun s') := ⟨h.regs, congrArg Machine.haltRun h.rest⟩

theorem AgreesBut.setPc (a : Word) : AgreesBut ds old (setPc s a) (setPc s' a) :=
  ⟨h.regs, congrArg (Machine.setPc · a) h.rest⟩

theorem AgreesBut.setMem (m : Memory) : AgreesBut ds old (setMem s m) (setMem s' m) :=
  ⟨h.regs, congrArg (Machine.setMem · m) h.rest⟩

theorem AgreesBut.setTable (m : Memory) (f : List Word) (n : Nat) :
    AgreesBut ds old (setTable s m f n) (setTable s' m f n) :=
  ⟨h.regs, congrArg (Machine.setTable · m f n) h.rest⟩

theorem AgreesBut.consumeByte : AgreesBut ds old (consumeByte s) (consumeByte s') :=
  ⟨h.regs, congrArg Machine.consumeByte h.rest⟩

theorem AgreesBut.emit (b : Byte) : AgreesBut ds old (emit s b) (emit s' b) := by
  refine ⟨h.regs, (congrArg (Machine.emit · b) h.rest).trans ?_⟩
  simp [Machine.emit]

theorem AgreesBut.writeReg (i : Reg) (v : Word) : AgreesBut ds old (writeReg s i v) (writeReg s' i v) :=
  ⟨fun r hr => by simp [h.regs r hr], congrArg (Machine.writeReg · i v) h.rest⟩

theorem AgreesBut.acceptInput (rc : Reg) (a : HostAnswer) :
    AgreesBut ds old (acceptInput rc a s) (acceptInput rc a s') := by
  cases a with
  | byte b => exact (h.writeReg rc _).consumeByte
  | endOfStream => exact h.writeReg rc _

/-! Each request of the segment table answers alike. -/

theorem AgreesBut.segWrite (id off v : Word) : AnswersAgree ds old (segWrite s id off v) (segWrite s' id off v) := by
  simp only [Machine.segWrite, h.mem]
  split
  · exact .error _
  · split_ifs
    · exact .ok (h.setMem _)
    · exact .error _

theorem AgreesBut.segFree (id : Word) : AnswersAgree ds old (segFree s id) (segFree s' id) := by
  simp only [Machine.segFree, h.mem, h.free, h.next]
  split_ifs
  · exact .error _
  · split
    · exact .error _
    · exact .ok (h.setTable _ _ _)

theorem AgreesBut.segReplace0_setPc (src a : Word) : AnswersAgree ds old
    ((segReplace0 s src).map (Machine.setPc · a)) ((segReplace0 s' src).map (Machine.setPc · a)) := by
  simp only [segReplace0, h.mem]
  split_ifs
  · exact .ok (h.setPc a)
  · split
    · exact .error _
    · exact .ok ((h.setMem _).setPc a)

theorem AgreesBut.segAlloc_writeReg (hg : s.allocRule = .granted) (rb : Reg) (n : Word) : AnswersAgree ds old
    ((segAlloc s n).map fun a => Machine.writeReg a.2 rb a.1) ((segAlloc s' n).map fun a => Machine.writeReg a.2 rb a.1) := by
  have hg' : s'.allocRule = .granted := (congrArg State.allocRule h.rest).trans hg
  simp only [segAlloc, allocOk, hg, hg', h.mem, h.free, h.next, Bool.true_eq_false, ↓reduceIte]
  split
  · exact .ok ((h.setTable _ _ _).writeReg rb _)
  · split_ifs
    · exact .error _
    · exact .ok ((h.setTable _ _ _).writeReg rb _)

/-- Related effects on related states give related next states. -/
theorem AgreesBut.retire {e : State → Except FaultKind State}
    (he : AnswersAgree ds old (e (Machine.advance s)) (e (Machine.advance s'))) (ht : retire s e = .next t) :
    ∃ t', retire s' e = .next t' ∧ AgreesBut ds old t t' := by
  generalize ha : e (Machine.advance s) = a at he
  generalize ha' : e (Machine.advance s') = a' at he
  cases he with
  | ok hu =>
    obtain rfl : _ = t := by simpa using (retire_ok ha).symm.trans ht
    exact ⟨_, retire_ok ha', hu⟩
  | error k =>
    obtain rfl : _ = t := by simpa using (retire_error ha).symm.trans ht
    exact ⟨_, retire_error ha', h.advance.takeFault k⟩

/-- An instruction that reads none of the registers of `ds`, with every allocation granted, keeps the relation. -/
theorem exec_agreesBut {i : Instr} (hi : ∀ r ∈ regsRead i, r ∉ ds) (hg : s.allocRule = .granted) (ht : exec i s = .next t) :
    ∃ t', exec i s' = .next t' ∧ AgreesBut ds old t t' := by
  have ha := h.advance
  have hread : ∀ r ∈ regsRead i, readReg (advance s') r = readReg (advance s) r := fun r hr => ha.regs r (hi r hr)
  cases i with
  | cmov ra rb rc =>
    rw [exec_cmov] at ht ⊢
    refine h.retire ?_ ht
    rw [hread rb (by simp [regsRead]), hread rc (by simp [regsRead])]
    split_ifs
    · exact .ok (ha.writeReg ra _)
    · exact .ok ha
  | sload ra rb rc =>
    rw [exec_sload] at ht ⊢
    refine h.retire ?_ ht
    rw [hread rb (by simp [regsRead]), hread rc (by simp [regsRead]), ha.segRead]
    rcases segRead (Machine.advance s) _ _ with k | v
    · exact .error k
    · exact .ok (ha.writeReg ra v)
  | sstore ra rb rc =>
    rw [exec_sstore] at ht ⊢
    refine h.retire ?_ ht
    rw [hread ra (by simp [regsRead]), hread rb (by simp [regsRead]), hread rc (by simp [regsRead])]
    exact ha.segWrite _ _ _
  | add ra rb rc | mul ra rb rc | nand ra rb rc =>
    simp only [exec_add, exec_mul, exec_nand] at ht ⊢
    refine h.retire ?_ ht
    rw [hread rb (by simp [regsRead]), hread rc (by simp [regsRead])]
    exact .ok (ha.writeReg ra _)
  | div ra rb rc =>
    rw [exec_div] at ht ⊢
    refine h.retire ?_ ht
    rw [hread rb (by simp [regsRead]), hread rc (by simp [regsRead])]
    split_ifs
    · exact .error _
    · exact .ok (ha.writeReg ra _)
  | halt => exact h.retire (e := fun s => .ok (Machine.haltRun s)) (.ok ha.haltRun) ht
  | map rb rc =>
    rw [exec_map] at ht ⊢
    refine h.retire ?_ ht
    rw [hread rc (by simp [regsRead])]
    exact ha.segAlloc_writeReg hg rb _
  | unmap rc =>
    rw [exec_unmap] at ht ⊢
    refine h.retire ?_ ht
    rw [hread rc (by simp [regsRead])]
    exact ha.segFree _
  | out rc =>
    rw [exec_out] at ht ⊢
    refine h.retire ?_ ht
    rw [hread rc (by simp [regsRead])]
    split_ifs
    · exact .error _
    · exact .ok (ha.emit _)
  | inp rc =>
    rcases hr : receive s with _ | a
    · obtain rfl : s = t := by simpa [exec_inp_waiting rc s hr] using ht
      exact ⟨s', exec_inp_waiting rc s' (h.receive.trans hr), h⟩
    · rw [exec_inp_answered rc s' (h.receive.trans hr)]
      exact h.retire (.ok (ha.acceptInput rc a)) ((exec_inp_answered rc s hr).symm.trans ht)
  | loadp rb rc =>
    rw [exec_loadp] at ht ⊢
    refine h.retire ?_ ht
    rw [hread rb (by simp [regsRead]), hread rc (by simp [regsRead])]
    exact ha.segReplace0_setPc _ _
  | lv ra value => exact h.retire (e := fun s => .ok (Machine.writeReg s ra value)) (.ok (ha.writeReg ra value)) ht

end AgreesBut

/-- With no register left out, the output history is all that differs. -/
theorem AgreesBut.eq {old : List Byte} {s' : State} (h : AgreesBut [] old s s') : s' = { s with out := old ++ s.out } := by
  have hregs : s'.regs = s.regs := Vector.ext fun r hr => h.regs ⟨r, hr⟩ List.not_mem_nil
  rw [h.rest, hregs]

/-- Overwriting the one register that may differ makes the states equal. -/
theorem AgreesBut.writeReg_eq {r : Reg} {s' : State} (h : AgreesBut [r] [] s s') (z : Word) :
    Machine.writeReg s' r z = Machine.writeReg s r z := by
  have hregs : RegsSameBut [] (Machine.writeReg s r z) (Machine.writeReg s' r z) := fun d _ => by
    rw [readReg_writeReg, readReg_writeReg]
    split_ifs with hd
    · rfl
    · exact h.regs d (by simpa using hd)
  exact AgreesBut.eq ⟨hregs, (h.writeReg r z).rest⟩

theorem agreesBut_writeReg (s : State) (r : Reg) (v : Word) : AgreesBut [r] [] s (writeReg s r v) :=
  ⟨fun d hd => by rw [readReg_writeReg, if_neg (List.mem_singleton.not.mp hd)], rfl⟩

/-- Settles O14. -/
theorem unreadRegistersDoNotMatter : Obligations.UnreadRegistersDoNotMatter := by
  intro i s t r v hr hg ht
  have hread : ∀ d ∈ regsRead i, d ∉ [r] := fun d hd hd' => hr (List.mem_singleton.mp hd' ▸ hd)
  obtain ⟨t', ht', h⟩ := exec_agreesBut (agreesBut_writeReg s r v) hread hg ht
  exact ⟨t', ht', h.writeReg_eq⟩

/-! What `step` answers, by what the fetch and the decoder say (R145). -/

theorem step_of_fetch_error {k : FaultKind} (hrun : s.run = .running) (hf : fetch s = .error k) :
    step s = .next (takeFault k s) := by
  simp [step, hrun, hf]

theorem step_of_invalid {w : Word} (hrun : s.run = .running) (hf : fetch s = .ok w)
    (hd : decode w = .error .invalidOpcode) : step s = .next (takeFault .invalidOpcode (advance s)) := by
  simp [step, hrun, hf, hd]

theorem step_of_decode {w : Word} {i : Instr} (hrun : s.run = .running) (hf : fetch s = .ok w) (hd : decode w = .ok i) :
    step s = exec i s := by
  simp [step, hrun, hf, hd]

theorem step_agreesBut {old : List Byte} {s' : State} (h : AgreesBut [] old s s') (hg : s.allocRule = .granted)
    (ht : step s = .next t) : ∃ t', step s' = .next t' ∧ AgreesBut [] old t t' := by
  obtain ⟨hrun, ⟨k, hf, rfl⟩ | ⟨w, hf, hd, rfl⟩ | ⟨w, i, hf, hd, he⟩⟩ := step_cases ht <;>
    rw [← h.run] at hrun <;> rw [← h.fetch] at hf
  · exact ⟨_, step_of_fetch_error hrun hf, h.takeFault k⟩
  · exact ⟨_, step_of_invalid hrun hf hd, h.advance.takeFault _⟩
  · rw [step_of_decode hrun hf hd]
    exact exec_agreesBut h (fun _ _ => List.not_mem_nil) hg he

theorem agreesBut_append (s : State) (old : List Byte) : AgreesBut [] old s { s with out := old ++ s.out } :=
  ⟨fun _ _ => rfl, rfl⟩

/-- Settles O37. -/
theorem outputHistoryIsNeverRead : Obligations.OutputHistoryIsNeverRead := by
  intro s t old hg ht
  obtain ⟨t', ht', h⟩ := step_agreesBut (agreesBut_append s old) hg ht
  rw [ht', h.eq]

end Sys2Proof.Machine
end

section
/-!
PROOFS. The memory rules (20_memory.md): a Reclaim and the Allocate after it (R66 to R69), and that the fetch reads the same
store that SSTORE writes and LOADP copies (R70, R71, R80).
-/
namespace Sys2Proof.Machine

variable {s t u : State} {id id' off v n : Word}

theorem SegmentSame.trans (h : SegmentSame id s t) (h' : SegmentSame id t u) : SegmentSame id s u :=
  ⟨h'.1.trans h.1, fun off => (h'.2 off).trans (h.2 off)⟩

/-- Inside the bounds a Write answers (R64). -/
theorem segWrite_of_lt (hn : segLen s id = some n) (hoff : off.toNat < n.toNat) (v : Word) :
    ∃ t, segWrite s id off v = .ok t := by
  obtain ⟨g, hg, rfl⟩ := segLen_eq_some.mp hn
  exact ⟨_, segWrite_eq_ok.mpr ⟨g, hg, hoff, rfl⟩⟩

/-- A Read after a Write to the same address gives the Word written (R64). -/
theorem segRead_of_segWrite (h : segWrite s id off v = .ok t) : segRead t id off = .ok v := by
  obtain ⟨g, -, hoff, rfl⟩ := segWrite_eq_ok.mp h
  exact segRead_eq_ok.mpr ⟨g.write off v, by simp, hoff, by simp [Segment.read_write]⟩

/-- A Write leaves every other segment alone (R64). -/
theorem segmentSame_of_segWrite (h : segWrite s id off v = .ok t) (hne : id' ≠ id) : SegmentSame id' s t := by
  obtain ⟨g, -, -, rfl⟩ := segWrite_eq_ok.mp h
  exact SegmentSame.of_put rfl hne

theorem segWrite_pc (h : segWrite s id off v = .ok t) : t.pc = s.pc := by
  obtain ⟨m, f, k, rfl⟩ := segWrite_eq_setTable h
  rfl

/-- What a Read answers depends on the segment alone, whatever state and ID it stands under. -/
theorem segRead_eq_of_segment_eq (h : t.mem.segment id' = s.mem.segment id) (off : Word) :
    segRead t id' off = segRead s id off := by
  simp only [segRead, h]

theorem segLen_drop (h : t.mem = s.mem.drop id) : segLen t id = none := by simp [segLen, h]

/-- Reclaim of an unmapped ID fails (R68). -/
theorem segFree_of_unmapped (h0 : id ≠ 0#32) (h : segLen s id = none) : segFree s id = .error .segmentFault := by
  simp [segFree, h0, segLen_eq_none.mp h]

/-! A new segment has the length asked for, and its Words are 0 (R66). -/

theorem segLen_put_zeros {m : Memory} (h : t.mem = m.put id (Segment.zeros n)) : segLen t id = some n := by
  simp [segLen, h]

theorem segRead_put_zeros {m : Memory} (h : t.mem = m.put id (Segment.zeros n)) (hoff : off.toNat < n.toNat) :
    segRead t id off = .ok 0#32 :=
  segRead_eq_ok.mpr ⟨Segment.zeros n, by simp [h], hoff, rfl⟩

/-- Settles O30: the Reclaim puts the ID on top of the free-list, where the Allocate takes it from. -/
theorem reclaimedIdIsReissuedCleared : Obligations.ReclaimedIdIsReissuedCleared := by
  intro s id n h0 hid hgrant
  set t := setTable s (s.mem.drop id) (id :: s.free) s.next
  set u := setTable t (t.mem.put id (Segment.zeros n)) s.free t.next
  have hreclaim : segFree s id = .ok t := segFree_eq_ok.mpr ⟨h0, hid, rfl⟩
  have hgone : segLen t id = none := segLen_drop rfl
  have hreissue : segAlloc t n = .ok (id, u) := segAlloc_eq_ok.mpr ⟨hgrant, .inl ⟨s.free, rfl, rfl⟩⟩
  have hlen : segLen u id = some n := segLen_put_zeros rfl
  have hframe : ∀ id', id' ≠ id → SegmentSame id' s u := fun _ hne =>
    (SegmentSame.of_drop (t := t) rfl hne).trans (SegmentSame.of_put rfl hne)
  exact ⟨t, u, hreclaim, fun _ => segRead_outside (.inl hgone), fun _ _ => segWrite_outside (.inl hgone),
    segFree_of_unmapped h0 hgone, hreissue, hlen, fun _ => segRead_put_zeros rfl,
    fun _ hoff => segRead_outside (.inr ⟨n, hlen, hoff⟩), rfl, rfl, hframe⟩

/-- Settles O31: the fetch is a Read of segment 0, and a Read gives the Word last written. -/
theorem storeIsSeenByTheFetch : Obligations.StoreIsSeenByTheFetch := by
  intro s ra rb rc n hra hn hoff
  obtain ⟨t, ht⟩ := segWrite_of_lt ((segLen_advance s 0#32).trans hn) hoff (readReg s rc)
  have hfetch : ∀ u : State, u.mem = t.mem → u.pc = readReg s rb → fetch u = .ok (readReg s rc) := fun u hm hpc => by
    rw [fetch, hpc, (SegmentSame.of_mem_eq hm).2, segRead_of_segWrite ht]
  refine ⟨t, ?_, hfetch, fun hnext => hfetch t rfl ?_⟩
  · rw [exec_sstore]
    exact retire_ok (by simpa only [readReg_advance, hra] using ht)
  · rw [segWrite_pc ht, advance_pc, hnext]

/-- Settles O32: after the LOADP segment 0 is the source's segment, under an ID of its own. -/
theorem loadedCodeIsAnIndependentCopy : Obligations.LoadedCodeIsAnIndependentCopy := by
  intro s rb rc h0 hsrc
  obtain ⟨g, hg⟩ := Option.isSome_iff_exists.mp hsrc
  have hreplace : segReplace0 (advance s) (readReg s rb) = .ok (setMem (advance s) (s.mem.put 0#32 g)) :=
    segReplace0_eq_ok.mpr (.inr ⟨h0, g, hg, rfl⟩)
  refine ⟨setPc (setMem (advance s) (s.mem.put 0#32 g)) (readReg s rc), ?_, ?_,
    fun _ _ _ hw => segmentSame_of_segWrite hw h0.symm, fun _ _ _ hw => segmentSame_of_segWrite hw h0⟩
  · rw [exec_loadp]
    exact retire_ok (by simp [hreplace, Except.map])
  · exact segRead_eq_of_segment_eq (by simp [hg]) _

end Sys2Proof.Machine
end

section
/-!
PROOFS. The encoding (30_encoding.md): the decoder's fields (R109), which Words are instructions (R110, R112), and the round
trip between Words and instructions (R113, R115).
-/
namespace Sys2Proof

open Sys2Proof.Machine

variable {w : Word} {i : Instr}

/-! The decoder's outputs, as arithmetic on the Word (R109). -/

theorem toNat_opcode_decoder (w : Word) : (decoder w).opcode.toNat = w.toNat / 2 ^ 28 := by
  have hop : w.toNat / 2 ^ 28 < 2 ^ 4 := by have := w.isLt; omega
  rw [decoder, BitVec.extractLsb'_toNat, Nat.shiftRight_eq_div_pow, Nat.mod_eq_of_lt hop]

theorem regField_eq_bitsReg (w : Word) (lo : Nat) : regField w lo = bitsReg w lo := by
  apply Fin.ext
  simp [regField, bitsReg, Nat.shiftRight_eq_div_pow]

theorem toNat_imm_decoder (w : Word) : (decoder w).imm.toNat = w.toNat % 2 ^ 25 := by
  simp only [decoder, BitVec.toNat_setWidth, BitVec.extractLsb'_toNat, Nat.shiftRight_zero]
  omega

/-- Settles O4. -/
theorem decoderOutputsAreTheFields : Obligations.DecoderOutputsAreTheFields := fun w =>
  ⟨toNat_opcode_decoder w, regField_eq_bitsReg w 6, regField_eq_bitsReg w 3, regField_eq_bitsReg w 0,
    regField_eq_bitsReg w 25, toNat_imm_decoder w⟩

/-! Which Words are instructions, and of which kind (R110, R112). -/

theorem Instr.opcode_le (i : Instr) : i.opcode ≤ 13 := by cases i <;> simp [Instr.opcode]

theorem exists_decode (h : w.toNat / 2 ^ 28 ≤ 13) : ∃ i, decode w = .ok i := by
  rw [← toNat_opcode_decoder] at h
  simp only [decode]
  generalize (decoder w).opcode.toNat = op at h
  interval_cases op <;> exact ⟨_, rfl⟩

theorem decode_invalid_iff : decode w = .error .invalidOpcode ↔ 14 ≤ w.toNat / 2 ^ 28 := by
  constructor
  · intro h
    by_contra hlt
    obtain ⟨i, hi⟩ := exists_decode (w := w) (by omega)
    rw [hi] at h; cases h
  · intro h
    rcases hd : decode w with ⟨⟨⟩⟩ | i
    · rfl
    · have := opcode_of_decode hd
      have := i.opcode_le
      omega

theorem wellFormed_of_decode (h : decode w = .ok i) : i.wellFormed = true := by
  simp only [decode] at h
  -- `h_14` is the branch of opcode 13, LV: the one value that could be too wide
  split at h <;> cases h
  case h_14 => exact decide_eq_true (toNat_imm_decoder w ▸ Nat.mod_lt _ (by decide))
  all_goals rfl

/-- Settles O3. -/
theorem decoderVerdictFollowsTheOpcode : Obligations.DecoderVerdictFollowsTheOpcode := by
  refine fun w => ⟨?_, decode_invalid_iff, fun h => ?_⟩
  · rw [← toNat_opcode_decoder]; exact decide_eq_true_iff
  · obtain ⟨i, hi⟩ := exists_decode h
    exact ⟨i, hi, wellFormed_of_decode hi, (opcode_of_decode hi).symm⟩

/-! The round trip from an instruction (R115). -/

theorem decode_encode (h : i.wellFormed = true) : decode (encode i) = .ok i := by
  cases i with
  | lv ra value =>
    have hvalue : (value.setWidth 25).setWidth 32 = value := BitVec.setWidth_setWidth_eq_self (of_decide_eq_true h)
    simp [encode, decode, decoder, hvalue]
  | _ => simp [encode, decode, decoder]

/-! The round trip from a Word: a format with its fields taken from `w` is `w` on the bits the format keeps (R115). -/

theorem regBits_regField (w : Word) (lo : Nat) : regBits (regField w lo) = w.extractLsb' lo 3 := rfl

section
variable {op : BitVec 4} (hop : w.extractLsb' 28 4 = op)
include hop

theorem encRRR_regFields : encRRR op (regField w 6) (regField w 3) (regField w 0) = w &&& 0xF00001FF#32 := by
  simp only [encRRR, regBits_regField, ← hop]
  ext j hj
  simp only [BitVec.getElem_and, BitVec.getElem_append, BitVec.getElem_extractLsb']
  interval_cases j <;> simp

theorem encBC_regFields : encBC op (regField w 3) (regField w 0) = w &&& 0xF000003F#32 := by
  simp only [encBC, regBits_regField, ← hop]
  ext j hj
  simp only [BitVec.getElem_and, BitVec.getElem_append, BitVec.getElem_extractLsb']
  interval_cases j <;> simp

theorem encC_regField : encC op (regField w 0) = w &&& 0xF0000007#32 := by
  simp only [encC, regBits_regField, ← hop]
  ext j hj
  simp only [BitVec.getElem_and, BitVec.getElem_append, BitVec.getElem_extractLsb']
  interval_cases j <;> simp

theorem encN_opcode : encN op = w &&& 0xF0000000#32 := by
  simp only [encN, ← hop]
  ext j hj
  simp only [BitVec.getElem_and, BitVec.getElem_append, BitVec.getElem_extractLsb']
  interval_cases j <;> simp

/-- The three fields of format LV are the whole Word (R106). -/
theorem encLV_fields : encLV op (regField w 25) ((decoder w).imm.setWidth 25) = w &&& 0xFFFFFFFF#32 := by
  have hkeep : w &&& 0xFFFFFFFF#32 = w := BitVec.and_allOnes
  have himm : (decoder w).imm.setWidth 25 = w.extractLsb' 0 25 := by simp [decoder]
  rw [hkeep, encLV, regBits_regField, himm, ← hop, BitVec.extractLsb'_append_extractLsb'_eq_extractLsb' (by decide),
    BitVec.extractLsb'_append_extractLsb'_eq_extractLsb' (by decide)]
  exact BitVec.extractLsb'_eq_self

end

theorem extractLsb'_of_decode (h : decode w = .ok i) : w.extractLsb' 28 4 = BitVec.ofNat 4 i.opcode := by
  rw [← opcode_of_decode h, ← toNat_opcode_decoder, BitVec.ofNat_toNat, BitVec.setWidth_eq, decoder]

theorem encode_of_decode (h : decode w = .ok i) : encode i = w &&& keepMask i.opcode := by
  have hop := extractLsb'_of_decode h
  simp only [decode] at h
  -- `h_n` is the branch of opcode `n - 1`
  split at h <;> cases h
  case h_8 => exact encN_opcode hop
  case h_9 | h_13 => exact encBC_regFields hop
  case h_10 | h_11 | h_12 => exact encC_regField hop
  case h_14 => exact encLV_fields hop
  all_goals exact encRRR_regFields hop

/-- Settles O1. -/
theorem decodeAndEncodeAgree : Obligations.DecodeAndEncodeAgree := by
  refine ⟨fun i => decode_encode, fun w i h => ?_, fun w => exists_decode, fun w => decode_invalid_iff.mpr, rfl, rfl,
    fun op h => ?_, fun op h => ?_, fun op h => ?_⟩
  · rw [opcode_of_decode h, encode_of_decode h]
  · interval_cases op <;> rfl
  · rcases h with rfl | rfl <;> rfl
  · rcases h with rfl | rfl | rfl <;> rfl

theorem encode_injective {i' : Instr} (hi : i.wellFormed = true) (hi' : i'.wellFormed = true) (h : encode i = encode i') :
    i = i' :=
  Except.ok.inj (by rw [← decode_encode hi, h, decode_encode hi'])

/-- Settles O2: both Words decode, to instructions with one encoding. -/
theorem unusedBitsAreIgnored : Obligations.UnusedBitsAreIgnored := by
  intro w w' hw hop hkeep
  obtain ⟨i, hi⟩ := exists_decode hw
  obtain ⟨i', hi'⟩ := exists_decode (hop ▸ hw)
  have henc : encode i = encode i' := by
    rw [encode_of_decode hi, encode_of_decode hi', ← opcode_of_decode hi, ← opcode_of_decode hi', hop, hkeep]
  obtain rfl := encode_injective (wellFormed_of_decode hi) (wellFormed_of_decode hi') henc
  exact ⟨i, hi, hi'⟩

/-- Settles O5. -/
theorem knownWordsDecode : Obligations.KnownWordsDecode := by
  unfold Obligations.KnownWordsDecode
  decide

end Sys2Proof
end

section
/-!
PROOFS. The idioms of R117: each instruction of a list as a step of `execAll`, and the results of the sequences.
-/
namespace Sys2Proof.Machine

section Sequences
variable (ra rb rc : Reg) (value : Word) (is : List Instr) (s : State)

theorem execAll_nand : execAll (.nand ra rb rc :: is) s =
    execAll is (writeReg (advance s) ra (~~~(readReg s rb &&& readReg s rc))) := rfl

theorem execAll_add : execAll (.add ra rb rc :: is) s =
    execAll is (writeReg (advance s) ra (readReg s rb + readReg s rc)) := rfl

theorem execAll_lv : execAll (.lv ra value :: is) s = execAll is (writeReg (advance s) ra value) := rfl

theorem execAll_cmov : execAll (.cmov ra rb rc :: is) s =
    execAll is (if readReg s rc ≠ 0#32 then writeReg (advance s) ra (readReg s rb) else advance s) := rfl

/-- A LOADP from segment 0 only jumps (R231). -/
theorem execAll_loadp_zero {z : Reg} {s : State} (h : readReg s z = 0#32) :
    execAll (.loadp z rc :: is) s = execAll is (setPc (advance s) (readReg s rc)) := by
  simp [execAll, exec_loadp, retire, segReplace0, h, Except.map]

end Sequences

/-- Settles O36: each sequence is run instruction by instruction, and a read finds the last write. -/
theorem idiomsComputeTheirResults : Obligations.IdiomsComputeTheirResults := by
  refine ⟨fun s ra rb => ?not, fun s ra rb rc t => ?and, fun s ra rb t => ?move, fun s ra rb t u htu => ?negate,
    fun s ra rb rc t u htu ht hu => ?subtract, fun s z rc hz => ?jump, fun s z p q k hz hq => ?condJump⟩
  case not => exact ⟨_, execAll_nand .., by simp⟩
  case and => exact ⟨_, (execAll_nand ..).trans (execAll_nand ..), by simp⟩
  case move => exact ⟨_, (execAll_nand ..).trans (execAll_nand ..), by simp⟩
  case negate =>
    refine ⟨_, (execAll_nand ..).trans <| (execAll_lv ..).trans (execAll_add ..), ?_⟩
    simp [htu, ← BitVec.neg_eq_not_add]
  case subtract =>
    refine ⟨_, (execAll_nand ..).trans <| (execAll_lv ..).trans <| (execAll_add ..).trans (execAll_add ..), ?_⟩
    simp [htu, ht, hu, ← BitVec.neg_eq_not_add, ← BitVec.sub_eq_add_neg]
  case jump =>
    exact ⟨_, (execAll_lv ..).trans (execAll_loadp_zero _ _ (by simp)), by simp [hz.symm], TableSame.of_eq rfl rfl rfl⟩
  case condJump =>
    rw [execAll_cmov]
    split_ifs with hk
    · exact ⟨_, execAll_loadp_zero _ _ (by simp [hz, hq.symm]), by simp, TableSame.of_eq rfl rfl rfl⟩
    · exact ⟨_, execAll_loadp_zero _ _ (by simp [hz]), by simp, TableSame.of_eq rfl rfl rfl⟩

end Sys2Proof.Machine
end

section
/-!
PROOFS. The cycle (40_engine.md): fetch, decode, dispatch (R141 to R145), and that a fault is precise (R147, R304).
-/
namespace Sys2Proof.Machine

variable {s t : State} {i : Instr} {k : FaultKind}

/-- Settles O6. -/
theorem stepRunsTheDecodedInstruction : Obligations.StepRunsTheDecodedInstruction :=
  fun _ _ _ => step_of_decode

/-- Taking a fault changes the run state alone (R306). -/
theorem takeFault_frame (k : FaultKind) (s : State) :
    RegsSameBut [] s (takeFault k s) ∧ TableSame s (takeFault k s) ∧ ChannelsSame s (takeFault k s) ∧
      ParamsSame s (takeFault k s) :=
  ⟨fun _ _ => rfl, TableSame.of_eq rfl rfl rfl, ⟨rfl, rfl⟩, rfl, rfl, rfl⟩

/-- Settles O7: the fetch is a Read of segment 0, so it fails exactly outside the bounds. -/
theorem fetchBeyondTheCodeSegmentFaults : Obligations.FetchBeyondTheCodeSegmentFaults := by
  refine fun s hrun => ⟨fun hout => ?_, fun n hn hpc => ?_⟩
  · exact ⟨_, step_of_fetch_error hrun (segRead_outside hout), rfl, rfl, takeFault_frame _ s⟩
  · obtain ⟨w, hw⟩ := segRead_of_lt hn hpc
    exact ⟨w, hw, hw, fun _ => hw⟩

/-- Settles O8. -/
theorem unassignedOpcodeFaults : Obligations.UnassignedOpcodeFaults := fun s _ hrun hf hw =>
  ⟨_, step_of_invalid hrun hf (decode_invalid_iff.mpr hw), faulted_takeFault _ s⟩

/-- An instruction of a running machine that ends in a fault did nothing but the increment and the fault, which is one of
those R303 lists for it (R147). -/
theorem exec_faulted (h : exec i s = .next t) (hrun : s.run = .running) (hk : t.run = .faulted k) :
    t = takeFault k (advance s) ∧ k ∈ possibleFaults i := by
  have running : ∀ {P : Prop}, s.run = .faulted k → P := fun hk' => by rw [hrun] at hk'; cases hk'
  cases exec_effect h with
  | fault _ k' hmem => cases hk; exact ⟨rfl, hmem⟩
  | halt => cases hk
  | wait | skip | reg | byte | out => exact running hk
  | store _ _ _ _ hr => obtain ⟨m, f, n, rfl⟩ := segWrite_eq_setTable hr; exact running hk
  | map _ _ _ _ hr => obtain ⟨m, f, n, rfl⟩ := segAlloc_eq_setTable hr; exact running hk
  | unmap _ _ hr => obtain ⟨m, f, n, rfl⟩ := segFree_eq_setTable hr; exact running hk
  | loadp _ _ _ hr => obtain ⟨m, f, n, rfl⟩ := segReplace0_eq_setTable hr; exact running hk

/-- Settles O10: a step that faults takes the fault of the fetch, or takes one after the increment. -/
theorem faultsArePrecise : Obligations.FaultsArePrecise := by
  intro s t k h hk
  obtain ⟨hrun, ⟨k', hf, rfl⟩ | ⟨w, hf, -, rfl⟩ | ⟨w, i, hf, -, he⟩⟩ := step_cases h
  · cases hk
    obtain ⟨hregs, htable, hchannels, hparams⟩ := takeFault_frame k s
    exact ⟨hregs, htable, hchannels, hparams, .inl ⟨rfl, segRead_error hf, k, hf⟩⟩
  · obtain ⟨-, hpc, hregs, htable, hchannels, hparams⟩ := faulted_takeFault .invalidOpcode s
    exact ⟨hregs, htable, hchannels, hparams, .inr ⟨hpc, w, hf⟩⟩
  · obtain ⟨rfl, -⟩ := exec_faulted he hrun hk
    obtain ⟨-, hpc, hregs, htable, hchannels, hparams⟩ := faulted_takeFault k s
    exact ⟨hregs, htable, hchannels, hparams, .inr ⟨hpc, w, hf⟩⟩

theorem exec_paramsSame (h : exec i s = .next t) : ParamsSame s t := by
  cases exec_effect h with
  | wait | fault | skip | reg | byte | halt | out => exact ⟨rfl, rfl, rfl⟩
  | store _ _ _ _ hr => obtain ⟨m, f, n, rfl⟩ := segWrite_eq_setTable hr; exact ⟨rfl, rfl, rfl⟩
  | map _ _ _ _ hr => obtain ⟨m, f, n, rfl⟩ := segAlloc_eq_setTable hr; exact ⟨rfl, rfl, rfl⟩
  | unmap _ _ hr => obtain ⟨m, f, n, rfl⟩ := segFree_eq_setTable hr; exact ⟨rfl, rfl, rfl⟩
  | loadp _ _ _ hr => obtain ⟨m, f, n, rfl⟩ := segReplace0_eq_setTable hr; exact ⟨rfl, rfl, rfl⟩

theorem step_paramsSame (h : step s = .next t) : ParamsSame s t := by
  obtain ⟨-, ⟨k, -, rfl⟩ | ⟨w, -, -, rfl⟩ | ⟨w, i, -, -, he⟩⟩ := step_cases h
  · exact ⟨rfl, rfl, rfl⟩
  · exact ⟨rfl, rfl, rfl⟩
  · exact exec_paramsSame he

/-- Settles O16. -/
theorem parametersNeverChange : Obligations.ParametersNeverChange := fun _ _ => step_paramsSame

/-! The placed Word (log entry 2). -/

/-- The fetch reads the placed Word: the pc is moved where a segment can reach it, and segment 0 is made longer than it. -/
theorem fetch_placeFetchWord (s : State) (w : Word) : fetch (placeFetchWord s w) = .ok w := by
  refine segRead_eq_ok.mpr ⟨_, by rw [placeFetchWord, Memory.segment_put, if_pos rfl], ?_, ?_⟩
  · simp only [Segment.write_len, placeFetchWord]
    generalize ((s.mem.segment 0#32).getD (Segment.zeros 0#32)).len = len
    split_ifs <;> bv_omega
  · rw [Segment.read_write, placeFetchWord, if_pos rfl]

theorem decode_of_decodeTableWord {nbits w : Nat} (h : decodeTableWord nbits w = some i) :
    decode (BitVec.ofNat 32 (w % 2 ^ nbits)) = .ok i := by
  simp only [decodeTableWord] at h
  split_ifs at h
  split at h <;> cases h
  assumption

/-- Settles O26. -/
theorem placedWordRunsNext : Obligations.PlacedWordRunsNext := fun s _ _ _ _ hd =>
  ⟨step_of_decode rfl (fetch_placeFetchWord s _) (decode_of_decodeTableWord hd), rfl, fun _ _ => rfl, rfl, rfl, ⟨rfl, rfl⟩,
    ⟨rfl, rfl, rfl⟩, fun _ hid => SegmentSame.of_put rfl hid, fun hpc => if_neg hpc⟩

end Sys2Proof.Machine
end

section
/-!
PROOFS. The blocks and their ports (D1, R149) make the steps of the instructions' meanings: the engine's dispatch is an effect
under `retire` too, and for each opcode it is the effect of the instruction.
-/
namespace Sys2Proof.Machine

variable {d : DecoderOut} {r : RegReads} {a : Option HostAnswer} {s : State} {w : Word} {i : Instr}

/-! The segment table's port: a request answers what the operation behind it answers (R61). -/

/-- The segment table's response to a request, `f` being applied to its Word (0 where it gives none) and the state after. -/
def answerRequest (f : Word → State → State) (s : State) (q : SegRequest) : Except FaultKind State :=
  match segTable q s with
  | (.fail k, _) => .error k
  | (.ok v, t) => .ok (f (v.getD 0#32) t)

section
variable (f : Word → State → State) (s : State) (id off v n : Word)

@[simp] theorem answerRequest_read : answerRequest f s (.read id off) = (segRead s id off).map (f · s) := by
  rw [answerRequest, segTable]
  rcases segRead s id off <;> rfl

@[simp] theorem answerRequest_write : answerRequest f s (.write id off v) = (segWrite s id off v).map (f 0#32) := by
  rw [answerRequest, segTable]
  rcases segWrite s id off v <;> rfl

@[simp] theorem answerRequest_allocate :
    answerRequest f s (.allocate n) = (segAlloc s n).map fun a => f a.1 a.2 := by
  rw [answerRequest, segTable]
  rcases segAlloc s n <;> rfl

@[simp] theorem answerRequest_reclaim : answerRequest f s (.reclaim id) = (segFree s id).map (f 0#32) := by
  rw [answerRequest, segTable]
  rcases segFree s id <;> rfl

@[simp] theorem answerRequest_replace : answerRequest f s (.replaceCodeSegment id) = (segReplace0 s id).map (f 0#32) := by
  rw [answerRequest, segTable]
  rcases segReplace0 s id <;> rfl
end

/-! The engine's dispatch as an effect. -/

/-- The engine's own check, the segment table's response, then the ports (R147, R149). -/
def blockEffect (d : DecoderOut) (r : RegReads) (a : Option HostAnswer) (s : State) : Except FaultKind State :=
  match engineCheck d.opcode.toNat r with
  | some k => .error k
  | none =>
    match segRequestOf d.opcode.toNat r with
    | none => .ok (applyPorts d r 0#32 a s)
    | some q => answerRequest (applyPorts d r · a) s q

/-- But for the wait of an IN, the engine's dispatch is that effect after the increment. -/
theorem blockExec_eq_retire (h : ¬ (d.opcode.toNat = 11 ∧ receive s = none)) :
    blockExec d s = retire s (blockEffect d (regFileRead s.regs d.ra d.rb d.rc) (receive s)) := by
  simp only [blockExec, if_neg h, retire, blockEffect]
  rcases engineCheck d.opcode.toNat _ with _ | k
  · rcases segRequestOf d.opcode.toNat _ with _ | q
    · rfl
    · simp only [answerRequest]
      rcases segTable q (advance s) with ⟨_ | _, _⟩ <;> rfl
  · rfl

theorem retire_congr {f g : State → Except FaultKind State} (h : f (advance s) = g (advance s)) : retire s f = retire s g := by
  rw [retire, retire, h]

/-! The ports of each opcode. -/

@[simp] theorem regFileRead_eq (s : State) (x y z : Reg) :
    regFileRead s.regs x y z = ⟨readReg s x, readReg s y, readReg s z⟩ := rfl

/-- The opcodes whose effect on the state, beside the segment table's, is at most a register write. -/
theorem applyPorts_eq (hop : d.opcode.toNat ∉ [7, 10, 11, 12]) (v : Word) :
    applyPorts d r v a = fun s =>
      if (regWriteOf d r v a).we then writeReg s (regWriteOf d r v a).waddr (regWriteOf d r v a).wdata else s := by
  simp only [List.mem_cons, List.not_mem_nil, or_false, not_or] at hop
  obtain ⟨h7, h10, h11, h12⟩ := hop
  have hin : inputBytesOf d.opcode.toNat a = 0 := by
    unfold inputBytesOf
    split
    · exact absurd ‹_› h11
    · rfl
  funext s
  simp only [applyPorts, regFileWrite, outByteOf, hin, h7, h10, h12, ↓reduceIte, List.append_nil, Nat.add_zero]
  split_ifs <;> rfl

theorem applyPorts_eq_id {v : Word} (hop : d.opcode.toNat ∉ [7, 10, 11, 12]) (hw : (regWriteOf d r v a).we = false) :
    applyPorts d r v a = id := by
  funext s
  simp [applyPorts_eq hop, hw]

theorem applyPorts_halt (hop : d.opcode.toNat = 7) (v : Word) : applyPorts d r v a = haltRun := by
  funext s
  simp [applyPorts, regWriteOf, regFileWrite, outByteOf, inputBytesOf, hop, haltRun]

theorem applyPorts_out (hop : d.opcode.toNat = 10) (v : Word) :
    applyPorts d r v a = fun s => emit s (r.rdataC.setWidth 8) := by
  funext s
  simp [applyPorts, regWriteOf, regFileWrite, outByteOf, inputBytesOf, hop, emit]

theorem applyPorts_inp (hop : d.opcode.toNat = 11) (v : Word) (x : HostAnswer) :
    applyPorts d r v (some x) = acceptInput d.rc x := by
  funext s
  cases x <;>
    simp [applyPorts, regWriteOf, regFileWrite, outByteOf, inputBytesOf, hop, acceptInput, inputWord, writeReg, consumeByte]

theorem applyPorts_loadp (hop : d.opcode.toNat = 12) (v : Word) :
    applyPorts d r v a = fun s => setPc s r.rdataC := by
  funext s
  simp [applyPorts, regWriteOf, regFileWrite, outByteOf, inputBytesOf, hop, setPc]

/-- Dispatch from the decoder's outputs is dispatch on the decoded instruction. -/
theorem blockExec_of_decode (h : decode w = .ok i) : blockExec (decoder w) s = exec i s := by
  simp only [decode] at h
  -- `h_n` is the branch of opcode `n - 1`
  split at h <;> cases h <;> rename_i hop
  -- IN, which may wait
  case h_12 =>
    rcases hr : receive s with _ | x
    · rw [exec_inp_waiting _ _ hr, blockExec, if_pos ⟨hop, hr⟩]
    · rw [exec_inp_answered _ _ hr, blockExec_eq_retire (by simp [hr])]
      refine retire_congr ?_
      simp [blockEffect, engineCheck, segRequestOf, applyPorts_inp, hop, hr]
  all_goals
    rw [blockExec_eq_retire (by simp [hop])]
    simp only [exec_cmov, exec_sload, exec_sstore, exec_add, exec_mul, exec_div, exec_nand, exec_halt, exec_map, exec_unmap,
      exec_out, exec_loadp, exec_lv]
    refine retire_congr ?_
    simp only [blockEffect, hop, engineCheck, segRequestOf, regFileRead_eq]
  -- CMOV's condition and DIV's check
  case h_1 | h_6 => by_cases hc : readReg s (decoder w).rc = 0#32 <;> simp [applyPorts_eq, hop, regWriteOf, hc]
  -- OUT's check
  case h_11 => by_cases hc : 255 < (readReg s (decoder w).rc).toNat <;> simp [applyPorts_out, hop, hc]
  -- HALT and LOADP
  case h_8 => rw [applyPorts_halt hop]
  case h_13 => simp [applyPorts_loadp, hop]
  -- SSTORE and UNMAP write no register, the others one
  case h_3 | h_10 => simp [applyPorts_eq_id, hop, regWriteOf, Except.map_id]
  all_goals simp [applyPorts_eq, hop, regWriteOf]

/-- Settles O27: the fetch is the same request, and the decoder's verdict is its invalid output. -/
theorem blockEngineEqualsStep : Obligations.BlockEngineEqualsStep := by
  intro s
  rcases hrun : s.run with _ | _ | k
  · rcases hf : segRead s 0#32 s.pc with k | w
    · rw [step_of_fetch_error hrun hf]
      simp [blockStep, segTable, hrun, hf]
    · rcases hd : decode w with ⟨⟨⟩⟩ | i
      · have hinvalid : (decoder w).invalid = true := (decoderVerdictFollowsTheOpcode w).1.mpr (decode_invalid_iff.mp hd)
        rw [step_of_invalid hrun hf hd]
        simp [blockStep, segTable, hrun, hf, hinvalid]
      · have hvalid : (decoder w).invalid = false := by
          rw [Bool.eq_false_iff, Ne, (decoderVerdictFollowsTheOpcode w).1, ← decode_invalid_iff, hd]
          simp
        rw [step_of_decode hrun hf hd, ← blockExec_of_decode hd]
        simp [blockStep, segTable, hrun, hf, hvalid]
  · simp [blockStep, step, hrun]
  · simp [blockStep, step, hrun]

end Sys2Proof.Machine
end

section
/-!
PROOFS. When the host gives its input (40_engine.md R150, R152): the wait of an IN and its end, that no step but an IN looks at
the input, and that a run is fixed by its start state and all of its input.
-/
namespace Sys2Proof.Machine

variable {s t : State} {input : List Byte} {ended : Bool}

/-! The answer that ends a wait. -/

theorem receive_of_consumed (hpos : s.inpos = s.input.length) :
    receive s = if s.inputEnded then some .endOfStream else none := by
  simp [receive, hpos]

/-- Of a stream all consumed, the next answer is the one the host gives next (R273). -/
theorem receive_hostGives_of_consumed (hpos : s.inpos = s.input.length) (hopen : s.inputEnded = false) (a : HostAnswer) :
    receive (hostGives a s) = some a := by
  cases a <;> simp [receive, hostGives, hpos, hopen]

/-- What an IN completes with (R271). -/
theorem exec_inp_next {a : HostAnswer} (rc : Reg) (h : receive s = some a) :
    exec (.inp rc) s = .next (acceptInput rc a (advance s)) := by
  rw [exec_inp_answered rc s h]
  rfl

/-- After the end the host gives nothing more (D13). -/
theorem hostGives_of_ended (a : HostAnswer) (h : s.inputEnded = true) : hostGives a s = s := if_pos h

theorem hostGives_endOfStream_ended (s : State) : (hostGives .endOfStream s).inputEnded = true := by
  rw [hostGives]
  split_ifs with h
  · exact h
  · rfl

theorem hostGives_inpos (a : HostAnswer) (s : State) : (hostGives a s).inpos = s.inpos :=
  congrArg ArchState.inpos (archOf_hostGives a s)

/-- Settles O34. -/
theorem waitingInputGoesOnWhenTheHostAnswers : Obligations.WaitingInputGoesOnWhenTheHostAnswers := by
  intro s rc b a hpos hopen
  have hanswer := receive_hostGives_of_consumed hpos hopen
  refine ⟨exec_inp_waiting rc s (by simp [receive_of_consumed hpos, hopen]),
    ⟨_, exec_inp_next rc (hanswer (.byte b)), ?_, ?_⟩, ⟨_, exec_inp_next rc (hanswer .endOfStream), ?_, ?_⟩,
    hostGives_of_ended a (hostGives_endOfStream_ended s)⟩
  · have := b.isLt
    simp only [acceptInput, readReg_consumeByte, readReg_writeReg, ↓reduceIte, BitVec.toNat_setWidth]
    omega
  · simp [acceptInput, hostGives_inpos]
  · simp [acceptInput]
  · simp [acceptInput, hostGives_inpos]

/-! A step from the state with another input. -/

/-- The state with another stream from the host. -/
def setInput (input : List Byte) (ended : Bool) (s : State) : State := { s with input := input, inputEnded := ended }

/-- What the host gives is an input that depends on the input before it alone (D13). -/
theorem hostGives_eq_setInput (a : HostAnswer) (hi : t.input = s.input) (he : t.inputEnded = s.inputEnded) :
    hostGives a t = setInput (hostGives a s).input (hostGives a s).inputEnded t := by
  cases a <;> simp only [hostGives, hi, he] <;> split_ifs <;> simp [setInput, ← hi, ← he]

section
variable (input : List Byte) (ended : Bool) (s : State)

@[simp] theorem setInput_mem : (setInput input ended s).mem = s.mem := rfl
@[simp] theorem setInput_free : (setInput input ended s).free = s.free := rfl
@[simp] theorem setInput_next : (setInput input ended s).next = s.next := rfl
@[simp] theorem readReg_setInput (r : Reg) : readReg (setInput input ended s) r = readReg s r := rfl
@[simp] theorem segRead_setInput (id off : Word) : segRead (setInput input ended s) id off = segRead s id off := rfl
@[simp] theorem writeReg_setInput (i : Reg) (v : Word) :
    writeReg (setInput input ended s) i v = setInput input ended (writeReg s i v) := rfl
@[simp] theorem emit_setInput (b : Byte) : emit (setInput input ended s) b = setInput input ended (emit s b) := rfl
@[simp] theorem allocOk_setInput (n : Word) : allocOk (setInput input ended s) n = allocOk s n := allocOk_congr rfl rfl n
end

/-! The requests of the segment table do not look at the input. -/

theorem segWrite_setInput (id off v : Word) :
    segWrite (setInput input ended s) id off v = (segWrite s id off v).map (setInput input ended) := by
  simp only [segWrite, setInput_mem]
  split
  · rfl
  · split_ifs <;> rfl

theorem segAlloc_setInput (n : Word) :
    segAlloc (setInput input ended s) n = (segAlloc s n).map fun a => (a.1, setInput input ended a.2) := by
  simp only [segAlloc, allocOk_setInput, setInput_mem, setInput_free, setInput_next]
  by_cases hok : allocOk s n = false <;> simp only [hok, ↓reduceIte]
  · rfl
  · rcases s.free with _ | ⟨id, rest⟩
    · by_cases hn : Config.idCount ≤ s.next <;> simp only [hn, ↓reduceIte] <;> rfl
    · rfl

theorem segFree_setInput (id : Word) :
    segFree (setInput input ended s) id = (segFree s id).map (setInput input ended) := by
  simp only [segFree, setInput_mem]
  split_ifs
  · rfl
  · split <;> rfl

theorem segReplace0_setInput (src : Word) :
    segReplace0 (setInput input ended s) src = (segReplace0 s src).map (setInput input ended) := by
  simp only [segReplace0, setInput_mem]
  split_ifs
  · rfl
  · split <;> rfl

/-- An effect that commutes with a change of the input does so under `retire`. -/
theorem retire_setInput {f : State → Except FaultKind State}
    (hf : f (setInput input ended (advance s)) = (f (advance s)).map (setInput input ended)) (ht : retire s f = .next t) :
    retire (setInput input ended s) f = .next (setInput input ended t) := by
  obtain ⟨u, hu, ho⟩ | ⟨k, hk, ho⟩ := retire_cases ht <;> cases ho
  · exact retire_ok (hf.trans (by rw [hu]; rfl))
  · exact retire_error (s := setInput input ended s) (hf.trans (by rw [hk]; rfl))

/-- No instruction looks at the input but an IN, and an IN at its next answer alone. -/
theorem exec_setInput {i : Instr} (ht : exec i s = .next t)
    (hr : ∀ rc, i = .inp rc → receive (setInput input ended s) = receive s) :
    exec i (setInput input ended s) = .next (setInput input ended t) := by
  cases i with
  | add | mul | nand | lv | halt =>
    simp only [exec_add, exec_mul, exec_nand, exec_lv, exec_halt] at ht ⊢
    exact retire_setInput rfl ht
  | cmov ra rb rc =>
    rw [exec_cmov] at ht ⊢
    refine retire_setInput ?_ ht
    by_cases hc : readReg s rc = 0#32 <;> simp [hc, Except.map]
  | div ra rb rc =>
    rw [exec_div] at ht ⊢
    refine retire_setInput ?_ ht
    by_cases hc : readReg s rc = 0#32 <;> simp [hc, Except.map]
  | out rc =>
    rw [exec_out] at ht ⊢
    refine retire_setInput ?_ ht
    by_cases hc : 255 < (readReg s rc).toNat <;> simp [hc, Except.map]
  | sload ra rb rc =>
    rw [exec_sload] at ht ⊢
    refine retire_setInput ?_ ht
    simp only [readReg_setInput, segRead_setInput]
    rcases segRead (advance s) _ _ <;> rfl
  | sstore ra rb rc =>
    rw [exec_sstore] at ht ⊢
    exact retire_setInput (segWrite_setInput ..) ht
  | map rb rc =>
    rw [exec_map] at ht ⊢
    refine retire_setInput ?_ ht
    simp only [readReg_setInput, segAlloc_setInput]
    rcases segAlloc (advance s) _ <;> rfl
  | unmap rc =>
    rw [exec_unmap] at ht ⊢
    exact retire_setInput (segFree_setInput _) ht
  | loadp rb rc =>
    rw [exec_loadp] at ht ⊢
    refine retire_setInput ?_ ht
    simp only [readReg_setInput, segReplace0_setInput]
    rcases segReplace0 (advance s) _ <;> rfl
  | inp rc =>
    specialize hr rc rfl
    rcases ha : receive s with _ | a
    · rw [exec_inp_waiting rc s ha] at ht
      cases ht
      exact exec_inp_waiting rc _ (hr.trans ha)
    · rw [exec_inp_answered rc s ha] at ht
      rw [exec_inp_answered rc _ (hr.trans ha)]
      refine retire_setInput ?_ ht
      cases a <;> rfl

/-- Nor does a step, but for the fetched IN. -/
theorem step_setInput (h : step s = .next t)
    (hr : ∀ w rc, fetch s = .ok w → decode w = .ok (.inp rc) → receive (setInput input ended s) = receive s) :
    step (setInput input ended s) = .next (setInput input ended t) := by
  obtain ⟨hrun, ⟨k, hf, rfl⟩ | ⟨w, hf, hd, rfl⟩ | ⟨w, i, hf, hd, he⟩⟩ := step_cases h
  · exact step_of_fetch_error (s := setInput input ended s) hrun hf
  · exact step_of_invalid (s := setInput input ended s) hrun hf hd
  · rw [step_of_decode (s := setInput input ended s) hrun hf hd]
    exact exec_setInput he fun rc hi => hr w rc hf (hi ▸ hd)

/-- A step goes on alike after the host's answer, or it is the wait of an IN. -/
theorem step_hostGives (a : HostAnswer) (h : step s = .next t) :
    step (hostGives a s) = .next (hostGives a t) ∨
      (t = s ∧ receive s = none ∧ ∃ w, fetch s = .ok w ∧ w.toNat / 2 ^ 28 = 11) := by
  by_cases hwait : ∃ w rc, fetch s = .ok w ∧ decode w = .ok (.inp rc) ∧ receive s = none
  · obtain ⟨w, rc, hf, hd, hr⟩ := hwait
    have hs : step s = .next s := by rw [step_of_decode (step_cases h).1 hf hd, exec_inp_waiting rc s hr]
    rw [hs] at h
    cases h
    exact .inr ⟨rfl, hr, w, hf, opcode_of_decode hd⟩
  · refine .inl ?_
    obtain ⟨hi, he, -⟩ := step_paramsSame h
    rw [hostGives_eq_setInput a rfl rfl, hostGives_eq_setInput a hi he]
    refine step_setInput h fun w rc hf hd => ?_
    obtain ⟨x, hx⟩ := Option.ne_none_iff_exists'.mp fun hr => hwait ⟨w, rc, hf, hd, hr⟩
    rw [← hostGives_eq_setInput a rfl rfl, receive_hostGives hx, hx]

/-- Settles O52. -/
theorem momentOfInputDoesNotMatter : Obligations.MomentOfInputDoesNotMatter := fun _ _ => step_hostGives

/-! Runs. -/

theorem runSteps_succ_of_step {n : Nat} (h : step s = .next t) : runSteps (n + 1) s = runSteps n t := by
  simp [runSteps, h]

theorem runSteps_succ_eq_some {n : Nat} : runSteps (n + 1) s = some t ↔ ∃ u, step s = .next u ∧ runSteps n u = some t := by
  rw [runSteps]
  rcases step s <;> simp

theorem runSteps_snoc {n : Nat} {u : State} (h : runSteps n s = some t) (ht : step t = .next u) :
    runSteps (n + 1) s = some u := by
  induction n generalizing s with
  | zero => cases h; exact runSteps_succ_of_step ht
  | succ n ih =>
    obtain ⟨s', hs, h⟩ := runSteps_succ_eq_some.mp h
    rw [runSteps_succ_of_step hs, ih h]

/-- What the host gives at the end of some steps it can give before them: each step goes on alike, or it is a wait, which the
run with the answer given leaves out. -/
theorem runSteps_hostGives {n : Nat} (a : HostAnswer) (h : runSteps n s = some t) :
    ∃ m, runSteps m (hostGives a s) = some (hostGives a t) := by
  induction n generalizing s with
  | zero => cases h; exact ⟨0, rfl⟩
  | succ n ih =>
    obtain ⟨u, hs, h⟩ := runSteps_succ_eq_some.mp h
    obtain ⟨m, hm⟩ := ih h
    rcases step_hostGives a hs with hs' | ⟨rfl, -⟩
    · exact ⟨m + 1, (runSteps_succ_of_step hs').trans hm⟩
    · exact ⟨m, hm⟩

/-- Every reached state is a state of the run that has its input from the start (R152). -/
theorem reachable_runSteps {s0 : State} (h : Reachable s0 s) :
    ∃ n, runSteps n (setInput s.input s.inputEnded s0) = some s := by
  induction h with
  | start => exact ⟨0, rfl⟩
  | step _ h ih =>
    obtain ⟨n, hn⟩ := ih
    obtain ⟨hi, he, -⟩ := step_paramsSame h
    exact ⟨n + 1, by rw [hi, he]; exact runSteps_snoc hn h⟩
  | @host s a _ ih =>
    obtain ⟨n, hn⟩ := ih
    have hgive : hostGives a (setInput s.input s.inputEnded s0) =
        setInput (hostGives a s).input (hostGives a s).inputEnded s0 := hostGives_eq_setInput (s := s) a rfl rfl
    exact hgive ▸ runSteps_hostGives a hn

/-- Settles O53. -/
theorem runIsFixedByItsParameters : Obligations.RunIsFixedByItsParameters := fun _ _ => reachable_runSteps

end Sys2Proof.Machine
end

section
/-!
PROOFS. Data movement (41_move.md): CMOV and LV, decoded from their Words and executed.
-/
namespace Sys2Proof.Machine

variable {w : Word}

/-! The decoder on a Word of a given opcode, as arithmetic on the Word (R109, R110). -/

theorem decoder_eq_fields (w : Word) : decoder w =
    { opcode := BitVec.ofNat 4 (w.toNat / 2 ^ 28)
      ra := bitsReg w 6
      rb := bitsReg w 3
      rc := bitsReg w 0
      lvRa := bitsReg w 25
      imm := BitVec.ofNat 32 (w.toNat % 2 ^ 25)
      invalid := decide (14 ≤ w.toNat / 2 ^ 28) } := by
  have hop : (decoder w).opcode = BitVec.ofNat 4 (w.toNat / 2 ^ 28) := by
    rw [← toNat_opcode_decoder, BitVec.ofNat_toNat, BitVec.setWidth_eq]
  have himm : (decoder w).imm = BitVec.ofNat 32 (w.toNat % 2 ^ 25) := by
    rw [← toNat_imm_decoder, BitVec.ofNat_toNat, BitVec.setWidth_eq]
  rw [← hop, ← himm, ← toNat_opcode_decoder]
  simp only [← regField_eq_bitsReg]
  rfl

theorem decode_cmov (h : w.toNat / 2 ^ 28 = 0) :
    decode w = .ok (.cmov (bitsReg w 6) (bitsReg w 3) (bitsReg w 0)) := by
  rw [decode, decoder_eq_fields, h]
  rfl

theorem decode_lv (h : w.toNat / 2 ^ 28 = 13) :
    decode w = .ok (.lv (bitsReg w 25) (BitVec.ofNat 32 (w.toNat % 2 ^ 25))) := by
  rw [decode, decoder_eq_fields, h]
  rfl

/-! What the two instructions answer. -/

/-- The increment alone: no register changes either. -/
theorem onlyRegister_advance (d : Reg) (s : State) : OnlyRegister d s (advance s) :=
  ⟨rfl, rfl, fun _ _ => rfl, TableSame.of_eq rfl rfl rfl, ⟨rfl, rfl⟩, rfl, rfl, rfl⟩

theorem exec_cmov_of_zero (ra rb : Reg) {rc : Reg} {s : State} (h : readReg s rc = 0#32) :
    exec (.cmov ra rb rc) s = .next (advance s) := by
  rw [exec_cmov]
  exact retire_ok (by simp [h])

theorem exec_cmov_of_ne_zero (ra rb : Reg) {rc : Reg} {s : State} (h : readReg s rc ≠ 0#32) :
    exec (.cmov ra rb rc) s = .next (writeReg (advance s) ra (readReg s rb)) := by
  rw [exec_cmov]
  exact retire_ok (by simp [h])

theorem exec_lv_next (ra : Reg) (value : Word) (s : State) :
    exec (.lv ra value) s = .next (writeReg (advance s) ra value) := by
  rw [exec_lv]
  exact retire_ok rfl

/-- Settles O38. -/
theorem cmovMovesIfTheConditionIsNonZero : Obligations.CmovMovesIfTheConditionIsNonZero := by
  refine ⟨fun w => decode_cmov, fun s ra rb rc => ?_⟩
  by_cases hc : readReg s rc = 0#32
  · exact ⟨_, exec_cmov_of_zero ra rb hc, by simp [hc], onlyRegister_advance ra s⟩
  · exact ⟨_, exec_cmov_of_ne_zero ra rb hc, by simp [hc], onlyRegister_writeReg ra _ s⟩

/-- Settles O39. -/
theorem lvLoadsTheZeroExtendedValue : Obligations.LvLoadsTheZeroExtendedValue :=
  ⟨fun _ => decode_lv, fun s ra value => ⟨_, exec_lv_next ra value s, by simp, onlyRegister_writeReg ra value s⟩⟩

end Sys2Proof.Machine
end

section
/-!
PROOFS. Segmented load and store (42_memory_ops.md): SLOAD and SSTORE, decoded from their Words and executed.
-/
namespace Sys2Proof.Machine

variable {s t : State} {w id id' off off' v : Word} {ra rb rc : Reg}

theorem decode_sload (h : w.toNat / 2 ^ 28 = 1) :
    decode w = .ok (.sload (bitsReg w 6) (bitsReg w 3) (bitsReg w 0)) := by
  rw [decode, decoder_eq_fields, h]
  rfl

theorem decode_sstore (h : w.toNat / 2 ^ 28 = 2) :
    decode w = .ok (.sstore (bitsReg w 6) (bitsReg w 3) (bitsReg w 0)) := by
  rw [decode, decoder_eq_fields, h]
  rfl

/-! What a Write leaves unchanged (R64). -/

/-- A Write changes the store alone. -/
theorem segWrite_eq_setMem (h : segWrite s id off v = .ok t) : ∃ m, t = setMem s m := by
  obtain ⟨g, -, -, rfl⟩ := segWrite_eq_ok.mp h
  exact ⟨_, rfl⟩

theorem segLen_of_segWrite (h : segWrite s id off v = .ok t) (id' : Word) : segLen t id' = segLen s id' := by
  obtain ⟨g, hg, -, rfl⟩ := segWrite_eq_ok.mp h
  exact segLen_of_store hg rfl

/-- Every address but the one written, in the same segment or in another, reads as before. -/
theorem segRead_of_segWrite_ne (h : segWrite s id off v = .ok t) (hne : ¬ (id' = id ∧ off' = off)) :
    segRead t id' off' = segRead s id' off' := by
  by_cases hid : id' = id
  · obtain ⟨g, hg, -, rfl⟩ := segWrite_eq_ok.mp h
    exact segRead_of_store hg rfl fun hoff => hne ⟨hid, hoff⟩
  · exact (segmentSame_of_segWrite h hid).2 off'

/-! What the two instructions answer. -/

theorem exec_sload_of_segRead (ra : Reg) (h : segRead s (readReg s rb) (readReg s rc) = .ok v) :
    exec (.sload ra rb rc) s = .next (writeReg (advance s) ra v) := by
  rw [exec_sload]
  exact retire_ok (by simp [h, Except.map])

theorem exec_sload_of_segRead_error {k : FaultKind} (ra : Reg)
    (h : segRead s (readReg s rb) (readReg s rc) = .error k) :
    exec (.sload ra rb rc) s = .next (takeFault k (advance s)) := by
  rw [exec_sload]
  exact retire_error (by simp [h, Except.map])

/-- The Write is a Write to the incremented state, so SSTORE answers what it answers (R142, R181). -/
theorem exec_sstore_of_segWrite (h : segWrite (advance s) (readReg s ra) (readReg s rb) (readReg s rc) = .ok t) :
    exec (.sstore ra rb rc) s = .next t := by
  rw [exec_sstore]
  exact retire_ok h

theorem exec_sstore_of_segWrite_error {k : FaultKind}
    (h : segWrite (advance s) (readReg s ra) (readReg s rb) (readReg s rc) = .error k) :
    exec (.sstore ra rb rc) s = .next (takeFault k (advance s)) := by
  rw [exec_sstore]
  exact retire_error h

/-- Settles O40: inside the bounds the Read answers, outside it fails. -/
theorem sloadReadsTheAddressedWord : Obligations.SloadReadsTheAddressedWord := by
  refine ⟨fun w => decode_sload, fun s ra rb rc => ⟨fun n hn hoff => ?_, fun hout => ?_⟩⟩
  · obtain ⟨v, hv⟩ := segRead_of_lt hn hoff
    exact ⟨_, v, exec_sload_of_segRead ra hv, hv, by simp, onlyRegister_writeReg ra v s⟩
  · exact ⟨_, exec_sload_of_segRead_error ra (segRead_outside hout), faulted_takeFault _ s⟩

/-- Settles O41: inside the bounds the Write answers and changes the addressed Word alone, outside it fails. -/
theorem sstoreWritesTheAddressedWord : Obligations.SstoreWritesTheAddressedWord := by
  refine ⟨fun w => decode_sstore, fun s ra rb rc => ⟨fun n hn hoff => ?_, fun hout => ?_⟩⟩
  · rw [← segLen_advance] at hn
    obtain ⟨t, ht⟩ := segWrite_of_lt hn hoff (readReg s rc)
    have hread : ∀ id off, ¬ (id = readReg s ra ∧ off = readReg s rb) → segRead t id off = segRead s id off :=
      fun id off hne => (segRead_of_segWrite_ne ht hne).trans (segRead_advance s id off)
    have hlen : ∀ id, segLen t id = segLen s id := fun id => (segLen_of_segWrite ht id).trans (segLen_advance s id)
    refine ⟨t, exec_sstore_of_segWrite ht, segRead_of_segWrite ht, hread, hlen, ?_⟩
    obtain ⟨m, rfl⟩ := segWrite_eq_setMem ht
    exact ⟨rfl, rfl, fun _ _ => rfl, rfl, rfl, ⟨rfl, rfl⟩, rfl, rfl, rfl⟩
  · rw [← segLen_advance] at hout
    exact ⟨_, exec_sstore_of_segWrite_error (segWrite_outside hout), faulted_takeFault _ s⟩

end Sys2Proof.Machine
end

section
/-!
PROOFS. Arithmetic and logic (43_arithmetic.md): ADD, MUL, DIV and NAND, decoded from their Words and executed.
-/
namespace Sys2Proof.Machine

section Decoding
variable {w : Word}

theorem decode_add (h : w.toNat / 2 ^ 28 = 3) :
    decode w = .ok (.add (bitsReg w 6) (bitsReg w 3) (bitsReg w 0)) := by
  rw [decode, decoder_eq_fields, h]
  rfl

theorem decode_mul (h : w.toNat / 2 ^ 28 = 4) :
    decode w = .ok (.mul (bitsReg w 6) (bitsReg w 3) (bitsReg w 0)) := by
  rw [decode, decoder_eq_fields, h]
  rfl

theorem decode_div (h : w.toNat / 2 ^ 28 = 5) :
    decode w = .ok (.div (bitsReg w 6) (bitsReg w 3) (bitsReg w 0)) := by
  rw [decode, decoder_eq_fields, h]
  rfl

theorem decode_nand (h : w.toNat / 2 ^ 28 = 6) :
    decode w = .ok (.nand (bitsReg w 6) (bitsReg w 3) (bitsReg w 0)) := by
  rw [decode, decoder_eq_fields, h]
  rfl

end Decoding

/-! What the four instructions answer: the operands are read before the target is written (R34). -/

section Execution
variable (ra rb rc : Reg) (s : State)

theorem exec_add_next :
    exec (.add ra rb rc) s = .next (writeReg (advance s) ra (readReg s rb + readReg s rc)) := by
  rw [exec_add]
  exact retire_ok rfl

theorem exec_mul_next :
    exec (.mul ra rb rc) s = .next (writeReg (advance s) ra (readReg s rb * readReg s rc)) := by
  rw [exec_mul]
  exact retire_ok rfl

theorem exec_nand_next :
    exec (.nand ra rb rc) s = .next (writeReg (advance s) ra (~~~(readReg s rb &&& readReg s rc))) := by
  rw [exec_nand]
  exact retire_ok rfl

variable {rc s}

theorem exec_div_of_ne_zero (h : readReg s rc ≠ 0#32) :
    exec (.div ra rb rc) s = .next (writeReg (advance s) ra (readReg s rb / readReg s rc)) := by
  rw [exec_div]
  exact retire_ok (by simp [h])

/-- The increment is all that is left of a DIV by 0 (R147, R202). -/
theorem exec_div_of_zero (h : readReg s rc = 0#32) :
    exec (.div ra rb rc) s = .next (takeFault .divisionByZero (advance s)) := by
  rw [exec_div]
  exact retire_error (by simp [h])

end Execution

/-- Settles O42. -/
theorem addIsModulo : Obligations.AddIsModulo := by
  refine ⟨fun w => decode_add, fun s ra rb rc => ⟨_, exec_add_next ra rb rc s, ?_, onlyRegister_writeReg ra _ s⟩⟩
  rw [readReg_writeReg, if_pos rfl, BitVec.toNat_add]

/-- Settles O43. -/
theorem mulIsModulo : Obligations.MulIsModulo := by
  refine ⟨fun w => decode_mul, fun s ra rb rc => ⟨_, exec_mul_next ra rb rc s, ?_, onlyRegister_writeReg ra _ s⟩⟩
  rw [readReg_writeReg, if_pos rfl, BitVec.toNat_mul]

/-- Settles O44: a divisor other than 0 gives the quotient, 0 the fault. -/
theorem divIsUnsignedAndFaultsOnZero : Obligations.DivIsUnsignedAndFaultsOnZero := by
  refine ⟨fun w => decode_div, fun s ra rb rc => ⟨fun hc => ?_, fun hc => ?_⟩⟩
  · refine ⟨_, exec_div_of_ne_zero ra rb hc, ?_, onlyRegister_writeReg ra _ s⟩
    rw [readReg_writeReg, if_pos rfl, BitVec.toNat_udiv]
  · exact ⟨_, exec_div_of_zero ra rb hc, faulted_takeFault _ s⟩

/-- Settles O45: below the width, a bit of the complement is the negated bit. -/
theorem nandIsBitwise : Obligations.NandIsBitwise := by
  refine ⟨fun w => decode_nand, fun s ra rb rc =>
    ⟨_, exec_nand_next ra rb rc s, fun i hi => ?_, onlyRegister_writeReg ra _ s⟩⟩
  rw [readReg_writeReg, if_pos rfl, BitVec.getLsbD_not, BitVec.getLsbD_and, decide_eq_true hi, Bool.true_and]

end Sys2Proof.Machine
end

section
/-!
PROOFS. Control (44_control.md): HALT and LOADP, decoded from their Words and executed, and that no other instruction ends
a run in Halted.
-/
namespace Sys2Proof.Machine

variable {s t : State} {w : Word} {i : Instr} {rb : Reg}

theorem decode_halt (h : w.toNat / 2 ^ 28 = 7) : decode w = .ok .halt := by
  rw [decode, decoder_eq_fields, h]
  rfl

theorem decode_loadp (h : w.toNat / 2 ^ 28 = 12) : decode w = .ok (.loadp (bitsReg w 3) (bitsReg w 0)) := by
  rw [decode, decoder_eq_fields, h]
  rfl

/-! What the two instructions answer. -/

theorem exec_halt_next (s : State) : exec .halt s = .next (haltRun (advance s)) := by
  rw [exec_halt]
  exact retire_ok rfl

/-- The target is read before the replacement, which changes no register, and overrides the increment (R231). -/
theorem exec_loadp_of_segReplace0 (rc : Reg) (h : segReplace0 (advance s) (readReg s rb) = .ok t) :
    exec (.loadp rb rc) s = .next (setPc t (readReg s rc)) := by
  rw [exec_loadp]
  exact retire_ok (by simp [h, Except.map])

/-- A replacement that fails leaves the pc at the increment and not at the target (R147). -/
theorem exec_loadp_of_segReplace0_error {k : FaultKind} (rc : Reg)
    (h : segReplace0 (advance s) (readReg s rb) = .error k) :
    exec (.loadp rb rc) s = .next (takeFault k (advance s)) := by
  rw [exec_loadp]
  exact retire_error (by simp [h, Except.map])

theorem segReplace0_of_unmapped {src : Word} (h0 : src ≠ 0#32) (hsrc : ¬ Mapped s src) :
    segReplace0 s src = .error .segmentFault := by
  have hnone : s.mem.segment src = none := by simpa [Mapped] using hsrc
  simp [segReplace0, h0, hnone]

/-- An instruction of a running machine that ends in Halted is a HALT: every other effect is a fault or leaves the run state
alone (R140). -/
theorem eq_halt_of_exec_halted (h : exec i s = .next t) (hrun : s.run = .running) (ht : t.run = .halted) : i = .halt := by
  have running : ∀ {P : Prop}, s.run = .halted → P := fun ht' => by rw [hrun] at ht'; cases ht'
  cases exec_effect h with
  | halt => rfl
  | fault => cases ht
  | wait | skip | reg | byte | out => exact running ht
  | store _ _ _ _ hr => obtain ⟨m, f, n, rfl⟩ := segWrite_eq_setTable hr; exact running ht
  | map _ _ _ _ hr => obtain ⟨m, f, n, rfl⟩ := segAlloc_eq_setTable hr; exact running ht
  | unmap _ _ hr => obtain ⟨m, f, n, rfl⟩ := segFree_eq_setTable hr; exact running ht
  | loadp _ _ _ hr => obtain ⟨m, f, n, rfl⟩ := segReplace0_eq_setTable hr; exact running ht

/-- Settles O12: of the three things a step can do, the two faults do not end in Halted. -/
theorem onlyHaltEndsTheRunNormally : Obligations.OnlyHaltEndsTheRunNormally := by
  intro s t h ht
  obtain ⟨hrun, ⟨k, -, rfl⟩ | ⟨w, -, -, rfl⟩ | ⟨w, i, hf, hi, he⟩⟩ := step_cases h
  · cases ht
  · cases ht
  · obtain rfl := eq_halt_of_exec_halted he hrun ht
    exact ⟨w, hf, opcode_of_decode hi⟩

/-- Settles O46: halting changes the run state alone, and a step starts in Running. -/
theorem haltEndsTheRun : Obligations.HaltEndsTheRun := by
  refine ⟨fun w => decode_halt, fun s => ⟨haltRun (advance s), exec_halt_next s, rfl, rfl, fun _ _ => rfl,
    TableSame.of_eq rfl rfl rfl, ⟨rfl, rfl⟩, ⟨rfl, rfl, rfl⟩, rfl, fun u hu => ?_⟩⟩
  have hrun : (haltRun (advance s)).run = .running := (step_cases hu).1
  cases hrun

/-- Settles O51: the three cases of ReplaceCodeSegment (R70). -/
theorem loadpReplacesTheCodeAndJumps : Obligations.LoadpReplacesTheCodeAndJumps := by
  refine ⟨fun w => decode_loadp, fun s rb rc => ⟨fun h0 => ?_, fun h0 hsrc => ?_, fun h0 hsrc => ?_⟩⟩
  · have hreplace : segReplace0 (advance s) (readReg s rb) = .ok (advance s) := segReplace0_eq_ok.mpr (.inl ⟨h0, rfl⟩)
    exact ⟨_, exec_loadp_of_segReplace0 rc hreplace, rfl, rfl, fun _ _ => rfl, TableSame.of_eq rfl rfl rfl, ⟨rfl, rfl⟩,
      rfl, rfl, rfl⟩
  · obtain ⟨g, hg⟩ := Option.isSome_iff_exists.mp hsrc
    have hreplace : segReplace0 (advance s) (readReg s rb) = .ok (setMem (advance s) (s.mem.put 0#32 g)) :=
      segReplace0_eq_ok.mpr (.inr ⟨h0, g, hg, rfl⟩)
    have hcode : (s.mem.put 0#32 g).segment 0#32 = s.mem.segment (readReg s rb) := by simp [hg]
    exact ⟨_, exec_loadp_of_segReplace0 rc hreplace, rfl, congrArg (Option.map Segment.len) hcode,
      segRead_eq_of_segment_eq hcode, fun _ hid => SegmentSame.of_put rfl hid, rfl, rfl, rfl, fun _ _ => rfl, ⟨rfl, rfl⟩,
      rfl, rfl, rfl⟩
  · exact ⟨_, exec_loadp_of_segReplace0_error rc (segReplace0_of_unmapped h0 hsrc), faulted_takeFault _ s⟩

end Sys2Proof.Machine
end

section
/-!
PROOFS. Segment management (45_segments.md): MAP and UNMAP, decoded from their Words and executed.
-/
namespace Sys2Proof.Machine

variable {s t : State} {w id n : Word} {rb rc : Reg} {free' : List Word} {next' : Nat}

theorem decode_map (h : w.toNat / 2 ^ 28 = 8) : decode w = .ok (.map (bitsReg w 3) (bitsReg w 0)) := by
  rw [decode, decoder_eq_fields, h]
  rfl

theorem decode_unmap (h : w.toNat / 2 ^ 28 = 9) : decode w = .ok (.unmap (bitsReg w 0)) := by
  rw [decode, decoder_eq_fields, h]
  rfl

/-! The ID that an Allocate issues (R66, R67). -/

/-- An ID is left in `s`, `id` is the next one to be issued, and issuing it leaves the free-list `free'` and the extent
`next'`. -/
def Issues (s : State) (id : Word) (free' : List Word) (next' : Nat) : Prop :=
  (s.free = id :: free' ∧ next' = s.next) ∨
    (s.free = [] ∧ free' = [] ∧ s.next < 2 ^ 32 ∧ id.toNat = s.next ∧ next' = s.next + 1)

theorem segAlloc_of_issues (hgrant : allocOk s n = true) (h : Issues s id free' next') :
    segAlloc s n = .ok (id, setTable s (s.mem.put id (Segment.zeros n)) free' next') := by
  rw [segAlloc_eq_ok]
  rcases h with ⟨hfree, rfl⟩ | ⟨hfree, rfl, hlt, hid, rfl⟩
  · exact ⟨hgrant, .inl ⟨free', hfree, rfl⟩⟩
  · have hext : id = BitVec.ofNat 32 s.next := BitVec.eq_of_toNat_eq (hid.trans (toNat_word_of_lt hlt).symm)
    exact ⟨hgrant, .inr ⟨hfree, hlt, hext, rfl⟩⟩

/-- Without a grant or without an ID left, Allocate fails (R66). -/
theorem segAlloc_of_exhausted (h : allocOk s n = false ∨ (s.free = [] ∧ s.next = 2 ^ 32)) :
    segAlloc s n = .error .resourceExhausted := by
  rcases ha : segAlloc s n with k | ⟨id, t⟩
  · rw [segAlloc_error ha]
  · obtain ⟨hgrant, hissue⟩ := segAlloc_eq_ok.mp ha
    rcases h with hrefused | ⟨hempty, hfull⟩
    · simp [hrefused] at hgrant
    · simp [hempty, hfull] at hissue

/-- Segment 0 is never free and is below the extent, so ID 0 is not issued (R42, R45). -/
theorem TableInv.issued_ne_zero (hs : TableInv s) (h : Issues s id free' next') : id ≠ 0#32 := by
  rintro rfl
  rcases h with ⟨hfree, -⟩ | ⟨-, -, -, hid, -⟩
  · exact hs.zero_not_free (by simp [hfree])
  · exact Nat.ne_of_lt hs.nextPos hid

/-! What the two instructions answer. -/

theorem exec_map_of_segAlloc (rb : Reg) (h : segAlloc (advance s) (readReg s rc) = .ok (id, t)) :
    exec (.map rb rc) s = .next (writeReg t rb id) := by
  rw [exec_map]
  exact retire_ok (by simp [h, Except.map])

theorem exec_map_of_segAlloc_error {k : FaultKind} (rb : Reg) (h : segAlloc (advance s) (readReg s rc) = .error k) :
    exec (.map rb rc) s = .next (takeFault k (advance s)) := by
  rw [exec_map]
  exact retire_error (by simp [h, Except.map])

/-- The Reclaim is one in the incremented state, so UNMAP answers what it answers (R142, R251). -/
theorem exec_unmap_of_segFree (h : segFree (advance s) (readReg s rc) = .ok t) : exec (.unmap rc) s = .next t := by
  rw [exec_unmap]
  exact retire_ok h

theorem exec_unmap_of_segFree_error {k : FaultKind} (h : segFree (advance s) (readReg s rc) = .error k) :
    exec (.unmap rc) s = .next (takeFault k (advance s)) := by
  rw [exec_unmap]
  exact retire_error h

theorem segFree_of_zero (h : id = 0#32) : segFree s id = .error .unmapZero := if_pos h

theorem segLen_eq_none_of_not_mapped (h : ¬ Mapped s id) : segLen s id = none := by
  simpa [Mapped, segLen_eq_none] using h

/-- Settles O47: Allocate puts a zero segment under the ID it issues, and the write of x[rb] leaves the table alone. -/
theorem mapIssuesTheRightIdOfAZeroSegment : Obligations.MapIssuesTheRightIdOfAZeroSegment := by
  refine ⟨fun w => decode_map, fun s rb rc => ⟨fun id free' next' hgrant hissue => ?_, fun hout => ?_⟩⟩
  · have halloc := segAlloc_of_issues (s := advance s) hgrant hissue
    exact ⟨_, exec_map_of_segAlloc rb halloc, by simp, rfl, rfl, segLen_put_zeros rfl, fun _ => segRead_put_zeros rfl,
      fun hs => hs.issued_ne_zero hissue, fun _ => SegmentSame.of_put rfl,
      fun r hr => by simp [List.mem_singleton.not.mp hr], rfl, rfl, ⟨rfl, rfl⟩, rfl, rfl, rfl⟩
  · exact ⟨_, exec_map_of_segAlloc_error rb (segAlloc_of_exhausted hout), faulted_takeFault _ s⟩

/-- Settles O48: the three cases of Reclaim (R68). -/
theorem unmapReclaimsTheSegment : Obligations.UnmapReclaimsTheSegment := by
  refine ⟨fun w => decode_unmap, fun s rc => ⟨fun h0 hid => ?_, fun h0 => ?_, fun h0 hid => ?_⟩⟩
  · set t := setTable (advance s) (s.mem.drop (readReg s rc)) (readReg s rc :: s.free) s.next
    have hfree : segFree (advance s) (readReg s rc) = .ok t := segFree_eq_ok.mpr ⟨h0, hid, rfl⟩
    have hgone : ¬ Mapped t (readReg s rc) := fun h => ((mapped_drop (s := s) rfl).mp h).1 rfl
    exact ⟨t, exec_unmap_of_segFree hfree, hgone, rfl, rfl, fun _ => SegmentSame.of_drop rfl, fun _ _ => rfl, rfl, rfl,
      ⟨rfl, rfl⟩, rfl, rfl, rfl⟩
  · exact ⟨_, exec_unmap_of_segFree_error (segFree_of_zero h0), faulted_takeFault _ s⟩
  · have hfree : segFree (advance s) (readReg s rc) = .error .segmentFault :=
      segFree_of_unmapped h0 (segLen_eq_none_of_not_mapped hid)
    exact ⟨_, exec_unmap_of_segFree_error hfree, faulted_takeFault _ s⟩

end Sys2Proof.Machine
end

section
/-!
PROOFS. Input and output (46_io.md): OUT and IN, decoded from their Words and executed, and what a step can do to the two
channels (R272, R273).
-/
namespace Sys2Proof.Machine

variable {s t : State} {w : Word} {i : Instr} {rc : Reg} {b : Byte}

theorem decode_out (h : w.toNat / 2 ^ 28 = 10) : decode w = .ok (.out (bitsReg w 0)) := by
  rw [decode, decoder_eq_fields, h]
  rfl

theorem decode_inp (h : w.toNat / 2 ^ 28 = 11) : decode w = .ok (.inp (bitsReg w 0)) := by
  rw [decode, decoder_eq_fields, h]
  rfl

/-! What the two instructions answer. -/

theorem exec_out_of_le (h : (readReg s rc).toNat ≤ 255) :
    exec (.out rc) s = .next (emit (advance s) ((readReg s rc).setWidth 8)) := by
  rw [exec_out]
  exact retire_ok (if_neg (Nat.not_lt.mpr h))

/-- The check comes before the emit, so a value above 255 leaves the increment alone (R147, R270). -/
theorem exec_out_of_gt (h : 255 < (readReg s rc).toNat) :
    exec (.out rc) s = .next (takeFault .invalidOutputValue (advance s)) := by
  rw [exec_out]
  exact retire_error (if_pos h)

theorem receive_of_byte (h : s.input[s.inpos]? = some b) : receive s = some (.byte b) := by
  rw [receive, h]

/-- Past the bytes given, the answer is the end of the stream, once the host has given that (R150, R273). -/
theorem receive_of_length_le (h : s.input.length ≤ s.inpos) :
    receive s = if s.inputEnded then some .endOfStream else none := by
  rw [receive, List.getElem?_eq_none h]

/-- Settles O49: the two sides of OUT's check. -/
theorem outEmitsOneByte : Obligations.OutEmitsOneByte := by
  refine ⟨fun w => decode_out, fun s rc => ⟨fun hle => ?_, fun hgt => ?_⟩⟩
  · refine ⟨_, exec_out_of_le hle, ?_, rfl, fun _ _ => rfl, TableSame.of_eq rfl rfl rfl, rfl, rfl, rfl, rfl, rfl⟩
    rw [emit_out, advance_out, BitVec.ofNat_toNat]
  · exact ⟨_, exec_out_of_gt hgt, faulted_takeFault _ s⟩

/-- Settles O50: the three answers of `receive`. -/
theorem inReceivesAByteOrEndOfStream : Obligations.InReceivesAByteOrEndOfStream := by
  refine ⟨fun w => decode_inp, fun s rc => ⟨fun b hb => ?_, fun hpos hended => ?_, fun hpos hopen => ?_⟩⟩
  · obtain ⟨hpc, hrun, hregs, -, -, hparams⟩ := onlyRegister_writeReg rc (b.setWidth 32) s
    refine ⟨_, exec_inp_next rc (receive_of_byte hb), ?_, rfl, rfl, hregs, TableSame.of_eq rfl rfl rfl, hpc, hrun, hparams⟩
    rw [acceptInput, readReg_consumeByte, readReg_writeReg, if_pos rfl, BitVec.toNat_setWidth_of_le (by decide)]
  · have hanswer : receive s = some .endOfStream := by rw [receive_of_length_le hpos, if_pos hended]
    exact ⟨_, exec_inp_next rc hanswer, by simp [acceptInput], onlyRegister_writeReg rc _ s⟩
  · exact exec_inp_waiting rc s (by simp [receive_of_length_le hpos, hopen])

/-! What a step can do to the channels. -/

/-- What a step from `s` to `t` can have done to the channels: nothing; an OUT's emit; an IN's consumption of the next byte,
which is there. -/
inductive ChannelChange (s t : State) : Prop
  | same : ChannelsSame s t → ChannelChange s t
  | emitted {w : Word} {rc : Reg} (b : Byte) : fetch s = .ok w → decode w = .ok (.out rc) → t.out = s.out ++ [b] →
      t.inpos = s.inpos → t.run = s.run → ChannelChange s t
  | consumed {w : Word} {rc : Reg} {b : Byte} : fetch s = .ok w → decode w = .ok (.inp rc) →
      s.input[s.inpos]? = some b → t.out = s.out → t.inpos = s.inpos + 1 → ChannelChange s t

/-- The segment table's requests do not touch the channels, and of the other effects only two do. -/
theorem exec_channelChange (hw : fetch s = .ok w) (hi : decode w = .ok i) (h : exec i s = .next t) : ChannelChange s t := by
  cases exec_effect h with
  | wait | fault | skip | reg | halt => exact .same ⟨rfl, rfl⟩
  | out rc b => exact .emitted b hw hi rfl rfl rfl
  | byte rc b hb => exact .consumed hw hi hb rfl rfl
  | store _ _ _ _ hr => obtain ⟨m, f, n, rfl⟩ := segWrite_eq_setTable hr; exact .same ⟨rfl, rfl⟩
  | map _ _ _ _ hr => obtain ⟨m, f, n, rfl⟩ := segAlloc_eq_setTable hr; exact .same ⟨rfl, rfl⟩
  | unmap _ _ hr => obtain ⟨m, f, n, rfl⟩ := segFree_eq_setTable hr; exact .same ⟨rfl, rfl⟩
  | loadp _ _ _ hr => obtain ⟨m, f, n, rfl⟩ := segReplace0_eq_setTable hr; exact .same ⟨rfl, rfl⟩

theorem step_channelChange (h : step s = .next t) : ChannelChange s t := by
  obtain ⟨-, ⟨k, -, rfl⟩ | ⟨w, -, -, rfl⟩ | ⟨w, i, hw, hi, he⟩⟩ := step_cases h
  · exact .same ⟨rfl, rfl⟩
  · exact .same ⟨rfl, rfl⟩
  · exact exec_channelChange hw hi he

/-- Settles O17: the emit leaves the run state alone, and a step starts in Running. -/
theorem outputOnlyGrows : Obligations.OutputOnlyGrows := by
  intro s t h
  cases step_channelChange h with
  | same hsame => exact .inl hsame.left
  | emitted b hw hi hout _ hrun => exact .inr ⟨b, _, hout, hw, opcode_of_decode hi, hrun.trans (step_cases h).1⟩
  | consumed _ _ _ hout => exact .inl hout

/-- Settles O18: the byte consumed stands at the old position. -/
theorem inputIsConsumedInOrder : Obligations.InputIsConsumedInOrder := by
  intro s t h
  cases step_channelChange h with
  | same hsame => exact .inl hsame.right
  | emitted _ _ _ _ hpos => exact .inl hpos
  | consumed hw hi hb _ hpos =>
    obtain ⟨hlt, -⟩ := List.getElem?_eq_some_iff.mp hb
    exact .inr ⟨hpos, hlt, _, hw, opcode_of_decode hi⟩

end Sys2Proof.Machine
end

section
/-!
PROOFS. Exceptions (60_exceptions.md): the kinds an instruction can raise (R303, R309), and the exit status (R308).
-/
namespace Sys2Proof.Machine

/-- LoadError is the loader's alone (R309): the table of R303 lists it for no instruction. -/
theorem loadError_notMem_possibleFaults (i : Instr) : .loadError ∉ possibleFaults i := by
  cases i <;> simp [possibleFaults]

/-- Settles O11: a kind the table lists is not LoadError. -/
theorem faultKindsFollowTheTable : Obligations.FaultKindsFollowTheTable := by
  intro i s t k h hrun hk
  obtain ⟨-, hmem⟩ := exec_faulted h hrun hk
  exact ⟨hmem, fun hload => loadError_notMem_possibleFaults i (hload ▸ hmem)⟩

theorem exitCode_ne_zero (k : FaultKind) : Config.exitCode k ≠ 0 := Nat.succ_ne_zero _

theorem exitStatus_eq_zero_iff {r : RunState} : exitStatus r = some 0 ↔ r = .halted := by
  cases r with
  | running => simp [exitStatus]
  | halted => simp [exitStatus]
  | faulted k => simp [exitStatus, exitCode_ne_zero k]

/-- Settles O35: EXIT_CODE of any kind is a successor (D11). -/
theorem exitStatusTellsHaltFromFault : Obligations.ExitStatusTellsHaltFromFault :=
  ⟨rfl, fun k => ⟨Config.exitCode k, rfl, exitCode_ne_zero k⟩, fun _ => exitStatus_eq_zero_iff.mp⟩

end Sys2Proof.Machine
end

section
/-!
PROOFS. Reset and hazards (70_reset_and_hazards.md): the loaded machine meets the segment table's invariant (R340), and the
loader's LoadError is raised in the four cases of R342 alone.
-/
namespace Sys2Proof.Machine

/-- Settles O22: the loader's state is the reset state of an image short enough for one segment. -/
theorem everyLoadedMachineMeetsTableInvariant : Obligations.EveryLoadedMachineMeetsTableInvariant :=
  fun _ _ _ => load_tableInv

/-- An image of n Words is 4n bytes long (R341). -/
theorem length_of_imageWords {B : List Byte} {ws : List Word} (h : imageWords B = some ws) : B.length = 4 * ws.length := by
  induction B using imageWords.induct generalizing ws with
  | case1 => cases h; rfl
  | case2 b0 b1 b2 b3 rest ih =>
    obtain ⟨ws', hws', rfl⟩ := Option.map_eq_some_iff.mp h
    have hrest : rest.length = 4 * ws'.length := ih hws'
    simp only [List.length_cons]
    omega
  | case3 B hnil hcons =>
    rw [imageWords.eq_3 B hnil hcons] at h
    cases h

/-- The loader raises no kind but LoadError (R342). -/
theorem load_error {p : ResetParams} {file : ImageFile} {k : FaultKind} (h : load p file = .error k) : k = .loadError := by
  cases file with
  | cannotBeOpened | cannotBeRead => cases h; rfl
  | bytes content =>
    simp only [load] at h
    split at h
    · cases h; rfl
    · split_ifs at h
      cases h; rfl

/-- Bytes of no whole number of Words, or of too many, are no image (R342). -/
theorem load_bytes_error (p : ResetParams) {B : List Byte} (h : B.length % 4 ≠ 0 ∨ 2 ^ 32 - 1 < B.length / 4) :
    load p (.bytes B) = .error .loadError := by
  rcases hload : load p (.bytes B) with k | s
  · rw [load_error hload]
  · obtain ⟨_, ws, hB, hws, hlen, -⟩ := load_eq_ok hload
    cases hB
    have := length_of_imageWords hws
    omega

/-- The empty image's segment 0 has length 0, so its first fetch is outside the bounds (R342, R141). -/
theorem load_empty_faults (p : ResetParams) : ∃ s t, load p (.bytes []) = .ok s ∧ step s = .next t ∧
    t.run = .faulted .segmentFault ∧ t.pc = 0#32 := by
  obtain ⟨s, hload, -, hpc, hlen, -, -, -, -, hrun, -⟩ := loaderBuildsTheResetState p [] (by simp) (by simp)
  have hout : segLen s 0#32 = some 0#32 := hlen
  obtain ⟨t, hstep, hfault, hpc', -⟩ := (fetchBeyondTheCodeSegmentFaults s hrun).1 (.inr ⟨_, hout, by simp⟩)
  exact ⟨s, t, hload, hstep, hfault, hpc'.trans hpc⟩

/-- Settles O29: of an image of whole Words, not too many, the loader builds the reset state. -/
theorem loadErrorInFourCases : Obligations.LoadErrorInFourCases := by
  refine fun p => ⟨rfl, rfl, fun _ => load_bytes_error p, fun B hmod hlen => ?_, load_empty_faults p⟩
  obtain ⟨s, hload, -⟩ := loaderBuildsTheResetState p B hmod hlen
  exact ⟨s, hload⟩

end Sys2Proof.Machine
end
